-- ==== Sys2Proof/Word.lean ====
section
/-! DEFINITION. The word types of the machine (spec/00_scope.md R7, R10): bit vectors of the widths the spec fixes. -/

namespace Sys2Proof

/-- A register value, an address, a program counter, an instruction word: 32 bits (R7, R10). -/
abbrev Word := BitVec 32

/-- A halfword: 16 bits. -/
abbrev Half := BitVec 16

/-- A memory cell or a console byte: 8 bits (R7). -/
abbrev Byte := BitVec 8

/-- A register index: 5 bits, 0 to 31 (R7, R20). -/
abbrev RegIdx := BitVec 5

end Sys2Proof
end

