-- ==== Sys2Proof/Config.lean ====
section
/-! DEFINITION. What the spec leaves to the implementation (spec/00_scope.md R8): the types of the parameters, the three
parameters that have NO value (opaque), and the free values (opaque). The parameters to which the spec gives a value
are definitions of Machine/Params.lean. -/

namespace Sys2Proof

/-- How a narrow value is widened to 32 bits (R8, R11): `zext` fills with zeros, `sext` copies the sign bit. -/
inductive ExtMode where
  | zext
  | sext
deriving DecidableEq, Repr, Inhabited

/-- What selector 8 does with the newline that ends the read (R8, `READSTR_NEWLINE`). -/
inductive NewlineMode where
  | drop
  | store
deriving DecidableEq, Repr, Inhabited

/-- `EXT_ANDI`, OPEN (R136, D3): no value, so a claim holds for both. Log entry 7. -/
opaque Config.extAndi : ExtMode

/-- `EXT_ORI`, OPEN (R136, D3). Log entry 7. -/
opaque Config.extOri : ExtMode

/-- `EXT_XORI`, OPEN (R136, D3). Log entry 7. -/
opaque Config.extXori : ExtMode

/-- The free 32-bit values (U4, U5, U8): the n-th one the run asks for. Log entry 21. -/
opaque Config.freeWord : Nat → Word

/-- The free amount of console input a failed integer scan consumes (U5: any prefix). Log entry 21. -/
opaque Config.freeCount : Nat → Nat

end Sys2Proof
end

