-- ==== Sys2Proof/Syntax.lean ====
section
/-! DEFINITION. The instructions (spec/00_scope.md R2): the 34 tags, and Instr with one constructor per row of
spec/opcode_table.json. Register arguments are named rs, rt, rd, rb for the spec's fields s, t, d, b. -/

namespace Sys2Proof

/-- The closed enumeration of operation tags (R2), in the table's order. -/
inductive Tag where
  | add | addu | sub | and | or | xor | sllv | srlv | slt | mul
  | addi | andi | ori | xori | slti | sll | srl | lui
  | lb | lh | lw | sb | sh | sw
  | beq | bne | blez | bgtz | bltz | bgez
  | j | jal | jr | systemcall
deriving DecidableEq, Repr

/-- A decoded instruction: its tag with the fields its rule uses (R87, R89). `blez` and `bgtz` carry the `t` field,
which their rules ignore (R88), and `systemcall` carries its whole word, of which no bit has any effect (R180), so that
no bit of an encoding is lost (log entry 28). -/
inductive Instr where
  | add (rd rs rt : RegIdx)
  | addu (rd rs rt : RegIdx)
  | sub (rd rs rt : RegIdx)
  | and (rd rs rt : RegIdx)
  | or (rd rs rt : RegIdx)
  | xor (rd rs rt : RegIdx)
  | sllv (rd rt rs : RegIdx)
  | srlv (rd rt rs : RegIdx)
  | slt (rd rs rt : RegIdx)
  | mul (rd rs rt : RegIdx)
  | addi (rt rs : RegIdx) (imm : Half)
  | andi (rt rs : RegIdx) (imm : Half)
  | ori (rt rs : RegIdx) (imm : Half)
  | xori (rt rs : RegIdx) (imm : Half)
  | slti (rt rs : RegIdx) (imm : Half)
  | sll (rd rt : RegIdx) (sa : BitVec 5)
  | srl (rd rt : RegIdx) (sa : BitVec 5)
  | lui (rt : RegIdx) (imm : Half)
  | lb (rt : RegIdx) (off : Half) (rb : RegIdx)
  | lh (rt : RegIdx) (off : Half) (rb : RegIdx)
  | lw (rt : RegIdx) (off : Half) (rb : RegIdx)
  | sb (rt : RegIdx) (off : Half) (rb : RegIdx)
  | sh (rt : RegIdx) (off : Half) (rb : RegIdx)
  | sw (rt : RegIdx) (off : Half) (rb : RegIdx)
  | beq (rs rt : RegIdx) (imm : Half)
  | bne (rs rt : RegIdx) (imm : Half)
  | blez (rs rt : RegIdx) (imm : Half)
  | bgtz (rs rt : RegIdx) (imm : Half)
  | bltz (rs : RegIdx) (imm : Half)
  | bgez (rs : RegIdx) (imm : Half)
  | j (x : BitVec 26)
  | jal (x : BitVec 26)
  | jr (rs : RegIdx)
  | systemcall (w : Word)
deriving DecidableEq, Repr

/-- The tag of an instruction. -/
def Instr.tag : Instr → Tag
  | .add _ _ _ => .add
  | .addu _ _ _ => .addu
  | .sub _ _ _ => .sub
  | .and _ _ _ => .and
  | .or _ _ _ => .or
  | .xor _ _ _ => .xor
  | .sllv _ _ _ => .sllv
  | .srlv _ _ _ => .srlv
  | .slt _ _ _ => .slt
  | .mul _ _ _ => .mul
  | .addi _ _ _ => .addi
  | .andi _ _ _ => .andi
  | .ori _ _ _ => .ori
  | .xori _ _ _ => .xori
  | .slti _ _ _ => .slti
  | .sll _ _ _ => .sll
  | .srl _ _ _ => .srl
  | .lui _ _ => .lui
  | .lb _ _ _ => .lb
  | .lh _ _ _ => .lh
  | .lw _ _ _ => .lw
  | .sb _ _ _ => .sb
  | .sh _ _ _ => .sh
  | .sw _ _ _ => .sw
  | .beq _ _ _ => .beq
  | .bne _ _ _ => .bne
  | .blez _ _ _ => .blez
  | .bgtz _ _ _ => .bgtz
  | .bltz _ _ => .bltz
  | .bgez _ _ => .bgez
  | .j _ => .j
  | .jal _ => .jal
  | .jr _ => .jr
  | .systemcall _ => .systemcall

end Sys2Proof
end

