-- ==== Sys2Proof/Decode.lean ====
section
/-! DEFINITION. The field extractor (spec/30_encoding.md R61 to R73), the instruction classifier (R74 to R84), the
decoder made of the two, the opcode table as mask and value pairs (R91), the encoder (R72 layouts), and the byte order
of an instruction word in memory (R55). -/

namespace Sys2Proof

/-! ### Field extractor -/

/-- `op = w[31:26]` (R61). -/
def fieldOp (w : Word) : BitVec 6 := w.extractLsb' 26 6

/-- `op_11 = w[31:21]` (R62). -/
def fieldOp11 (w : Word) : BitVec 11 := w.extractLsb' 21 11

/-- `s = b = w[25:21]` (R63). -/
def fieldS (w : Word) : RegIdx := w.extractLsb' 21 5

/-- `t = w[20:16]` (R64). -/
def fieldT (w : Word) : RegIdx := w.extractLsb' 16 5

/-- `d = w[15:11]` (R65). -/
def fieldD (w : Word) : RegIdx := w.extractLsb' 11 5

/-- `I_16 = O = w[15:0]` (R66). -/
def fieldI16 (w : Word) : Half := w.extractLsb' 0 16

/-- `I_5 = w[10:6]` (R67). -/
def fieldI5 (w : Word) : BitVec 5 := w.extractLsb' 6 5

/-- `X = w[25:0]` (R68). -/
def fieldX (w : Word) : BitVec 26 := w.extractLsb' 0 26

/-- `end_21 = w[20:0]` (R69). -/
def fieldEnd21 (w : Word) : BitVec 21 := w.extractLsb' 0 21

/-- `end_6 = w[5:0]` (R70). -/
def fieldEnd6 (w : Word) : BitVec 6 := w.extractLsb' 0 6

/-- `len_11 = w[10:0]`: `I_5` and `end_6`, without `d` (R71, C2). -/
def fieldLen11 (w : Word) : BitVec 11 := w.extractLsb' 0 11

/-! ### Classifier: nine ordered steps, the first match wins (R74) -/

/-- `LUI_OP11 = 0x1E0`, the reading 90_conflicts.md C1 chooses (R79). Log entry 8. -/
def luiOp11 : BitVec 11 := 0x1E0#11

/-- Step 1 (R75): opcode 0 and all eleven bits of `len_11`. -/
def classifyStep1 (w : Word) : Option Tag :=
  if fieldOp w = 0 then
    if fieldLen11 w = 0x020 then some .add
    else if fieldLen11 w = 0x021 then some .addu
    else if fieldLen11 w = 0x022 then some .sub
    else if fieldLen11 w = 0x024 then some .and
    else if fieldLen11 w = 0x025 then some .or
    else if fieldLen11 w = 0x026 then some .xor
    else if fieldLen11 w = 0x004 then some .sllv
    else if fieldLen11 w = 0x006 then some .srlv
    else if fieldLen11 w = 0x02A then some .slt
    else none
  else none

/-- Step 2 (R76). -/
def classifyStep2 (w : Word) : Option Tag :=
  if fieldOp w = 0x1C ∧ fieldLen11 w = 0x002 then some .mul else none

/-- Step 3 (R77): the immediate-class opcodes. -/
def classifyStep3 (w : Word) : Option Tag :=
  if fieldOp w = 0x08 then some .addi
  else if fieldOp w = 0x0C then some .andi
  else if fieldOp w = 0x0D then some .ori
  else if fieldOp w = 0x0E then some .xori
  else if fieldOp w = 0x0A then some .slti
  else none

/-- Step 4 (R78): `t`, `d` and `I_5` are free (C3). -/
def classifyStep4 (w : Word) : Option Tag :=
  if fieldOp11 w = 0 ∧ fieldEnd6 w = 0x00 then some .sll
  else if fieldOp11 w = 0 ∧ fieldEnd6 w = 0x02 then some .srl
  else none

/-- Step 5 (R79). -/
def classifyStep5 (w : Word) : Option Tag :=
  if fieldOp11 w = luiOp11 then some .lui else none

/-- Step 6 (R80): the load and store opcodes. -/
def classifyStep6 (w : Word) : Option Tag :=
  if fieldOp w = 0x20 then some .lb
  else if fieldOp w = 0x21 then some .lh
  else if fieldOp w = 0x23 then some .lw
  else if fieldOp w = 0x28 then some .sb
  else if fieldOp w = 0x29 then some .sh
  else if fieldOp w = 0x2B then some .sw
  else none

/-- Step 7 (R81): the branches. -/
def classifyStep7 (w : Word) : Option Tag :=
  if fieldOp w = 0x04 then some .beq
  else if fieldOp w = 0x05 then some .bne
  else if fieldOp w = 0x06 then some .blez
  else if fieldOp w = 0x07 then some .bgtz
  else if fieldOp w = 0x01 ∧ fieldT w = 0 then some .bltz
  else if fieldOp w = 0x01 ∧ fieldT w = 1 then some .bgez
  else none

/-- Step 8 (R82): the jumps. -/
def classifyStep8 (w : Word) : Option Tag :=
  if fieldOp w = 0x02 then some .j
  else if fieldOp w = 0x03 then some .jal
  else if fieldOp w = 0 ∧ fieldEnd21 w = 0x08 then some .jr
  else none

/-- The classifier (R74): the steps in order, and step 9, the catch-all (R83). -/
def classify (w : Word) : Tag :=
  match classifyStep1 w with
  | some t => t
  | none =>
  match classifyStep2 w with
  | some t => t
  | none =>
  match classifyStep3 w with
  | some t => t
  | none =>
  match classifyStep4 w with
  | some t => t
  | none =>
  match classifyStep5 w with
  | some t => t
  | none =>
  match classifyStep6 w with
  | some t => t
  | none =>
  match classifyStep7 w with
  | some t => t
  | none =>
  match classifyStep8 w with
  | some t => t
  | none => .systemcall

/-! ### Decoder -/

/-- The instruction of a tag, its operands extracted from the word (R73, R87, R89). -/
def assemble (t : Tag) (w : Word) : Instr :=
  match t with
  | .add => .add (fieldD w) (fieldS w) (fieldT w)
  | .addu => .addu (fieldD w) (fieldS w) (fieldT w)
  | .sub => .sub (fieldD w) (fieldS w) (fieldT w)
  | .and => .and (fieldD w) (fieldS w) (fieldT w)
  | .or => .or (fieldD w) (fieldS w) (fieldT w)
  | .xor => .xor (fieldD w) (fieldS w) (fieldT w)
  | .sllv => .sllv (fieldD w) (fieldT w) (fieldS w)
  | .srlv => .srlv (fieldD w) (fieldT w) (fieldS w)
  | .slt => .slt (fieldD w) (fieldS w) (fieldT w)
  | .mul => .mul (fieldD w) (fieldS w) (fieldT w)
  | .addi => .addi (fieldT w) (fieldS w) (fieldI16 w)
  | .andi => .andi (fieldT w) (fieldS w) (fieldI16 w)
  | .ori => .ori (fieldT w) (fieldS w) (fieldI16 w)
  | .xori => .xori (fieldT w) (fieldS w) (fieldI16 w)
  | .slti => .slti (fieldT w) (fieldS w) (fieldI16 w)
  | .sll => .sll (fieldD w) (fieldT w) (fieldI5 w)
  | .srl => .srl (fieldD w) (fieldT w) (fieldI5 w)
  | .lui => .lui (fieldT w) (fieldI16 w)
  | .lb => .lb (fieldT w) (fieldI16 w) (fieldS w)
  | .lh => .lh (fieldT w) (fieldI16 w) (fieldS w)
  | .lw => .lw (fieldT w) (fieldI16 w) (fieldS w)
  | .sb => .sb (fieldT w) (fieldI16 w) (fieldS w)
  | .sh => .sh (fieldT w) (fieldI16 w) (fieldS w)
  | .sw => .sw (fieldT w) (fieldI16 w) (fieldS w)
  | .beq => .beq (fieldS w) (fieldT w) (fieldI16 w)
  | .bne => .bne (fieldS w) (fieldT w) (fieldI16 w)
  | .blez => .blez (fieldS w) (fieldT w) (fieldI16 w)
  | .bgtz => .bgtz (fieldS w) (fieldT w) (fieldI16 w)
  | .bltz => .bltz (fieldS w) (fieldI16 w)
  | .bgez => .bgez (fieldS w) (fieldI16 w)
  | .j => .j (fieldX w)
  | .jal => .jal (fieldX w)
  | .jr => .jr (fieldS w)
  | .systemcall => .systemcall w

/-- The instruction of a word: classify once (R93, R94), then extract. Total: no word is rejected (R85). -/
def decode (w : Word) : Instr := assemble (classify w) w

/-! ### The opcode table (R91) -/

/-- One row: the tag is selected exactly when `w &&& mask = value`. -/
structure OpcodeRow where
  tag : Tag
  mask : Word
  value : Word
deriving DecidableEq, Repr

/-- Rows 1 to 17 of spec/opcode_table.json (the R-type and immediate-class ones). -/
def opcodeTableR : List OpcodeRow :=
  [⟨.add, 0xFC0007FF, 0x00000020⟩, ⟨.addu, 0xFC0007FF, 0x00000021⟩, ⟨.sub, 0xFC0007FF, 0x00000022⟩,
   ⟨.and, 0xFC0007FF, 0x00000024⟩, ⟨.or, 0xFC0007FF, 0x00000025⟩, ⟨.xor, 0xFC0007FF, 0x00000026⟩,
   ⟨.sllv, 0xFC0007FF, 0x00000004⟩, ⟨.srlv, 0xFC0007FF, 0x00000006⟩, ⟨.slt, 0xFC0007FF, 0x0000002A⟩,
   ⟨.mul, 0xFC0007FF, 0x70000002⟩,
   ⟨.addi, 0xFC000000, 0x20000000⟩, ⟨.andi, 0xFC000000, 0x30000000⟩, ⟨.ori, 0xFC000000, 0x34000000⟩,
   ⟨.xori, 0xFC000000, 0x38000000⟩, ⟨.slti, 0xFC000000, 0x28000000⟩,
   ⟨.sll, 0xFFE0003F, 0x00000000⟩, ⟨.srl, 0xFFE0003F, 0x00000002⟩]

/-- Rows 18 to 33 of spec/opcode_table.json. -/
def opcodeTableI : List OpcodeRow :=
  [⟨.lui, 0xFFE00000, 0x3C000000⟩,
   ⟨.lb, 0xFC000000, 0x80000000⟩, ⟨.lh, 0xFC000000, 0x84000000⟩, ⟨.lw, 0xFC000000, 0x8C000000⟩,
   ⟨.sb, 0xFC000000, 0xA0000000⟩, ⟨.sh, 0xFC000000, 0xA4000000⟩, ⟨.sw, 0xFC000000, 0xAC000000⟩,
   ⟨.beq, 0xFC000000, 0x10000000⟩, ⟨.bne, 0xFC000000, 0x14000000⟩, ⟨.blez, 0xFC000000, 0x18000000⟩,
   ⟨.bgtz, 0xFC000000, 0x1C000000⟩, ⟨.bltz, 0xFC1F0000, 0x04000000⟩, ⟨.bgez, 0xFC1F0000, 0x04010000⟩,
   ⟨.j, 0xFC000000, 0x08000000⟩, ⟨.jal, 0xFC000000, 0x0C000000⟩, ⟨.jr, 0xFC1FFFFF, 0x00000008⟩]

/-- The 33 rows that test bits of the word, in the table's order (row 34, SYSTEMCALL, is the default). -/
def opcodeTable : List OpcodeRow := opcodeTableR ++ opcodeTableI

/-- The word has the row's pattern. -/
def OpcodeRow.matches (r : OpcodeRow) (w : Word) : Bool := w &&& r.mask == r.value

/-- The tag the table gives a word: the first row that matches, else SYSTEMCALL. -/
def tableTag (w : Word) : Tag :=
  match opcodeTable.find? (fun r => r.matches w) with
  | some r => r.tag
  | none => .systemcall

/-- The word matches none of the 33 patterns (R83). -/
def isCatchAll (w : Word) : Bool := opcodeTable.all (fun r => !r.matches w)

/-! ### Encoder -/

/-- The R layout (R72). -/
def encodeR (op : BitVec 6) (s t d i5 : BitVec 5) (f : BitVec 6) : Word := op ++ s ++ t ++ d ++ i5 ++ f

/-- The I layout (R72). -/
def encodeI (op : BitVec 6) (s t : BitVec 5) (imm : Half) : Word := op ++ s ++ t ++ imm

/-- The J layout (R72). -/
def encodeJ (op : BitVec 6) (x : BitVec 26) : Word := op ++ x

/-- The word of an instruction, from the layouts and the `match` column of the table. -/
def encode : Instr → Word
  | .add d s t => encodeR 0x00 s t d 0 0x20
  | .addu d s t => encodeR 0x00 s t d 0 0x21
  | .sub d s t => encodeR 0x00 s t d 0 0x22
  | .and d s t => encodeR 0x00 s t d 0 0x24
  | .or d s t => encodeR 0x00 s t d 0 0x25
  | .xor d s t => encodeR 0x00 s t d 0 0x26
  | .sllv d t s => encodeR 0x00 s t d 0 0x04
  | .srlv d t s => encodeR 0x00 s t d 0 0x06
  | .slt d s t => encodeR 0x00 s t d 0 0x2A
  | .mul d s t => encodeR 0x1C s t d 0 0x02
  | .addi t s i => encodeI 0x08 s t i
  | .andi t s i => encodeI 0x0C s t i
  | .ori t s i => encodeI 0x0D s t i
  | .xori t s i => encodeI 0x0E s t i
  | .slti t s i => encodeI 0x0A s t i
  | .sll d t sa => encodeR 0x00 0 t d sa 0x00
  | .srl d t sa => encodeR 0x00 0 t d sa 0x02
  | .lui t i => (luiOp11 ++ t ++ i : Word)
  | .lb t o b => encodeI 0x20 b t o
  | .lh t o b => encodeI 0x21 b t o
  | .lw t o b => encodeI 0x23 b t o
  | .sb t o b => encodeI 0x28 b t o
  | .sh t o b => encodeI 0x29 b t o
  | .sw t o b => encodeI 0x2B b t o
  | .beq s t i => encodeI 0x04 s t i
  | .bne s t i => encodeI 0x05 s t i
  | .blez s t i => encodeI 0x06 s t i
  | .bgtz s t i => encodeI 0x07 s t i
  | .bltz s i => encodeI 0x01 s 0 i
  | .bgez s i => encodeI 0x01 s 1 i
  | .j x => encodeJ 0x02 x
  | .jal x => encodeJ 0x03 x
  | .jr s => encodeR 0x00 s 0 0 0 0x08
  | .systemcall w => w

/-! ### An instruction word in memory -/

/-- Little-endian composition of four bytes, the first at the lowest address (R42, R55). -/
def wordOfBytes (b0 b1 b2 b3 : Byte) : Word := b3 ++ b2 ++ b1 ++ b0

/-- Little-endian composition of two bytes, the first at the lower address (R42). -/
def halfOfBytes (b0 b1 : Byte) : Half := b1 ++ b0

/-- Byte `i` of a word, bits `[8i+7 : 8i]` (R43). -/
def wordByte (w : Word) (i : Nat) : Byte := w.extractLsb' (8 * i) 8

/-- Why a list of bytes gives no instruction. -/
inductive DecodeError where
  /-- Fewer than four bytes: an instruction is one 32-bit word (R60). Safe: nothing runs. -/
  | tooFewBytes
deriving DecidableEq, Repr

/-- The instruction at the head of a list of bytes, with the bytes after it: total, and no word is rejected (R85). -/
def decodeBytes : List Byte → Except DecodeError (Instr × List Byte)
  | b0 :: b1 :: b2 :: b3 :: rest => .ok (decode (wordOfBytes b0 b1 b2 b3), rest)
  | _ => .error .tooFewBytes

/-- The 32-bit word of a table row's bits: the bits above `nbits` are 0, as are those above the word. -/
def tableWord (nbits w : Nat) : Word := BitVec.ofNat 32 (w % 2 ^ nbits)

/-- The instruction the decoder reads from an instruction whose bits are `w`, laid out as memory holds it. -/
def decodeTableWord (nbits w : Nat) : Option Instr :=
  if w % 2 ^ nbits < 2 ^ 32 then
    match decodeBytes ((List.range 4).map (wordByte (tableWord nbits w))) with
    | .ok (i, _) => some i
    | .error _ => none
  else none

end Sys2Proof
end

