-- ==== Sys2Proof/WellFormed.lean ====
section
/-! DEFINITION. Which terms of Instr are instructions of the machine: every constructor's fields have exactly the widths
of the encoding, so the one check is that a SYSTEMCALL carries a word that matches none of the 33 patterns
(spec/30_encoding.md R83). -/

namespace Sys2Proof

/-- The term is the decoding of some word. -/
def Instr.wf : Instr → Bool
  | .add _ _ _ => true
  | .addu _ _ _ => true
  | .sub _ _ _ => true
  | .and _ _ _ => true
  | .or _ _ _ => true
  | .xor _ _ _ => true
  | .sllv _ _ _ => true
  | .srlv _ _ _ => true
  | .slt _ _ _ => true
  | .mul _ _ _ => true
  | .addi _ _ _ => true
  | .andi _ _ _ => true
  | .ori _ _ _ => true
  | .xori _ _ _ => true
  | .slti _ _ _ => true
  | .sll _ _ _ => true
  | .srl _ _ _ => true
  | .lui _ _ => true
  | .lb _ _ _ => true
  | .lh _ _ _ => true
  | .lw _ _ _ => true
  | .sb _ _ _ => true
  | .sh _ _ _ => true
  | .sw _ _ _ => true
  | .beq _ _ _ => true
  | .bne _ _ _ => true
  | .blez _ _ _ => true
  | .bgtz _ _ _ => true
  | .bltz _ _ => true
  | .bgez _ _ => true
  | .j _ => true
  | .jal _ => true
  | .jr _ => true
  | .systemcall w => isCatchAll w

end Sys2Proof
end

