-- ==== Sys2Proof/Machine/State.lean ====
section
/-! DEFINITION. The machine's state (spec/40_execute_cycle.md R98: x, pc, Mem, CON_IN, CON_OUT, halted), its value at
reset, and the reasons a step can stop. -/

namespace Sys2Proof.Machine

/-- The memory image (R30, R40): the bytes that differ from 0x00, as (address, byte) pairs with strictly rising
addresses below 2^32. Every total image of 2^32 bytes is such a list. Log entry 3. -/
abbrev Memory := List Host.Cell

end Sys2Proof.Machine

namespace Sys2Proof.Machine

/-- The machine state (R98), and the model's own index of free values. -/
structure State where
  /-- `x[0]` to `x[31]` (R20). -/
  regs : Vector Word 32
  /-- The program counter (R24). -/
  pc : Word
  /-- The memory image (R30). -/
  mem : Memory
  /-- `CON_IN`: the console bytes not read yet, then end of file (R31). -/
  conIn : List Byte
  /-- `CON_OUT`: the console bytes written, oldest first (R31). -/
  conOut : List Byte
  /-- The last activation asked to terminate (R32, R98). -/
  halted : Bool
  /-- THE MODEL'S OWN: the index of the next free value (log entry 21). -/
  freeIndex : Nat
deriving DecidableEq, Repr

/-- Right after reset. The spec gives `CON_OUT` empty, `halted` false and `x[0]` zero (R34), and leaves the rest to the
launch (D11): the zeros here are DESIGN CHOICES, log entries 1 to 4 and 21. -/
def State.reset : State where
  regs := Vector.replicate 32 0
  pc := 0
  mem := []
  conIn := []
  conOut := []
  halted := false
  freeIndex := 0

/-- Why the machine stops with a fault. The core itself raises none (R200). -/
inductive Fault where
  /-- A byte access at `a`, where the memory collaborator's `MemValid` is false (R48, U3), raised by the byte port for
  a fetch, a load, a store or selectors 4 and 8. `atFault` is the state then, with the bytes and the console activity
  of the same activation that came before. Not reachable while `MemValid` is true everywhere (D9). Safe. -/
  | invalidAddress (a : Word) (atFault : State)
  /-- Selector 4 with no zero byte in all of memory: the activation never returns (R182, U6: stuck). Safe. -/
  | printStringNeverEnds
deriving DecidableEq, Repr

/-- Why the machine gives a step no meaning. -/
inductive Refusal where
  /-- An instruction without a meaning in this model, by its mnemonic; raised by no arm now. Safe. -/
  | notModelled (mnemonic : String)
  /-- Selector 8 with buffer length 0, to which the spec gives no meaning (R185, U7: refuse). Safe. -/
  | readStringLengthZero
  /-- A step after the halt: the run has ended and the spec describes no later state (R98, U14: refuse). Safe. -/
  | runEnded
deriving DecidableEq, Repr

end Sys2Proof.Machine
end

