-- ==== Sys2Proof/Machine/Params.lean ====
section
/-! DEFINITION. The parameters of spec/00_scope.md R8 at the spec's values (92_eei_decisions.md), each named once. The
OPEN ones and the free values are the opaque constants of Config. Log entry 29. -/

namespace Sys2Proof.Machine

/-- `REG_RA` (R22, D1): the register `JAL` links in. Log entry 5. -/
def regRa : RegIdx := 31

/-- `REG_SEL` (R22, D1): the syscall selector. Log entry 5. -/
def regSel : RegIdx := 2

/-- `REG_RES` (R22, D1): the syscall result, the same register as the selector. Log entry 5. -/
def regRes : RegIdx := 2

/-- `REG_A0` (R22, D1): the first syscall argument. Log entry 5. -/
def regA0 : RegIdx := 4

/-- `REG_A1` (R22, D1): the second syscall argument. Log entry 5. -/
def regA1 : RegIdx := 5

/-- `R0_HARDWIRED` (R21, D2). Log entry 6. -/
def r0Hardwired : Bool := true

/-- `EXT_ANDI`: OPEN (R136, D3). Log entry 7. -/
def extAndi : ExtMode := Config.extAndi

/-- `EXT_ORI`: OPEN (R136, D3). Log entry 7. -/
def extOri : ExtMode := Config.extOri

/-- `EXT_XORI`: OPEN (R136, D3). Log entry 7. -/
def extXori : ExtMode := Config.extXori

/-- `MemValid` (R48, D9): true everywhere. Log entry 9. -/
def memValid (_a : Word) : Bool := true

/-- `PRINT_INT_SIGNED` (R181, D15). Log entry 18. -/
def printIntSigned : Bool := true

/-- `READSTR_NEWLINE` (R185, D18). Log entry 22. -/
def readStrNewline : NewlineMode := .drop

/-- `READCHAR_EXT` (R188, D19). Log entry 24. -/
def readCharExt : ExtMode := .zext

/-- The n-th free 32-bit value (U4, U5, U8). Log entry 21. -/
def freeWord (n : Nat) : Word := Config.freeWord n

/-- The free amount of console input a failed scan consumes (U5). Log entry 21. -/
def freeCount (n : Nat) : Nat := Config.freeCount n

/-- How many byte addresses there are (R40). -/
def addressCount : Nat := 2 ^ 32

end Sys2Proof.Machine
end

