-- ==== Sys2Proof/Machine/Ops.lean ====
section
/-! DEFINITION. The primitives through which every rule touches the state (spec/00_scope.md R12): register port, byte
memory port and the accesses composed of it, console, the free values, and the one write of the next pc and of the
termination result. There is no exception entry and no return from one: the hardware has none (60_exceptions.md R200,
R206, R207). A parameter of R8 that an operation uses is an argument of it. -/

namespace Sys2Proof.Machine

/-- The three outcomes of an activation. -/
abbrev Result := Host.Outcome State Fault Refusal

/-! ### Register port (R20, R21) -/

/-- `get_register(i)` on a register file that hardwires index 0 when `hw` (R21). -/
def regRead (hw : Bool) (r : Vector Word 32) (i : RegIdx) : Word :=
  if hw ∧ i = 0 then 0 else r[i.toNat]'(i.isLt)

/-- `set_register(i, v)` on a register file that discards writes to index 0 when `hw` (R21). -/
def regWrite (hw : Bool) (r : Vector Word 32) (i : RegIdx) (v : Word) : Vector Word 32 :=
  if hw ∧ i = 0 then r else r.set i.toNat v i.isLt

/-- `x[i]` (R12). -/
def State.reg (s : State) (i : RegIdx) : Word := regRead r0Hardwired s.regs i

/-- `x[i] <- v` (R12). -/
def State.setReg (s : State) (i : RegIdx) (v : Word) : State := { s with regs := regWrite r0Hardwired s.regs i v }

/-! ### Memory image -/

/-- What an address that memory does not list reads as. Log entry 3. -/
def unlistedByte : Byte := 0

/-- The canonical form from address `lo` on: rising addresses below 2^32, no byte equal to the unlisted one. -/
def Memory.wfFrom : Nat → Memory → Bool
  | _, [] => true
  | lo, (a, b) :: m => decide (lo ≤ a) && decide (a < addressCount) && decide (b ≠ unlistedByte) && Memory.wfFrom (a + 1) m

/-- The memory is in canonical form. -/
def Memory.wf (m : Memory) : Bool := Memory.wfFrom 0 m

/-- The byte at an address. -/
def Memory.read : Memory → Nat → Byte
  | [], _ => unlistedByte
  | (a', b') :: m, a => if a = a' then b' else Memory.read m a

/-- The memory with one byte replaced. -/
def Memory.write : Memory → Nat → Byte → Memory
  | [], a, b => if b = unlistedByte then [] else [(a, b)]
  | (a', b') :: m, a, b =>
    if a < a' then (if b = unlistedByte then (a', b') :: m else (a, b) :: (a', b') :: m)
    else if a = a' then (if b = unlistedByte then m else (a, b) :: m)
    else (a', b') :: Memory.write m a b

/-- The memory with consecutive bytes replaced from address `a` on, addresses modulo 2^32 (R43, R45). -/
def Memory.writeList : Memory → Word → List Byte → Memory
  | m, _, [] => m
  | m, a, b :: bs => Memory.writeList (m.write a.toNat b) (a + 1) bs

/-- The byte memory holds at `a`, as an observation (no port access). -/
def State.byte (s : State) (a : Word) : Byte := s.mem.read a.toNat

/-- The state with another memory image. -/
def State.setMem (s : State) (m : Memory) : State := { s with mem := m }

/-! ### Byte port (R41, R48) and the accesses composed of it (R42, R43, R47) -/

/-- `Mem[a]`: faults where `valid` is false (R48, U3). -/
def getByte (valid : Word → Bool) (s : State) (a : Word) : Except Fault Byte :=
  if valid a then .ok (s.byte a) else .error (.invalidAddress a s)

/-- `Mem[a] <- b`: faults where `valid` is false (R48, U3). -/
def setByte (valid : Word → Bool) (s : State) (a : Word) (b : Byte) : Except Fault State :=
  if valid a then .ok (s.setMem (s.mem.write a.toNat b)) else .error (.invalidAddress a s)

/-- `MemRead(a, 1)` (R42). -/
def memRead1 (valid : Word → Bool) (s : State) (a : Word) : Except Fault Byte := getByte valid s a

/-- `MemRead(a, 2) = Mem[a+1] ++ Mem[a]`, ascending (R42, R47). -/
def memRead2 (valid : Word → Bool) (s : State) (a : Word) : Except Fault Half := do
  let b0 ← getByte valid s a
  let b1 ← getByte valid s (a + 1)
  return halfOfBytes b0 b1

/-- `MemRead(a, 4) = Mem[a+3] ++ Mem[a+2] ++ Mem[a+1] ++ Mem[a]`, ascending (R42, R47). -/
def memRead4 (valid : Word → Bool) (s : State) (a : Word) : Except Fault Word := do
  let b0 ← getByte valid s a
  let b1 ← getByte valid s (a + 1)
  let b2 ← getByte valid s (a + 2)
  let b3 ← getByte valid s (a + 3)
  return wordOfBytes b0 b1 b2 b3

/-- Consecutive byte writes from `a` on, ascending, addresses modulo 2^32; a fault keeps the bytes before it (U3). -/
def storeBytes (valid : Word → Bool) (s : State) (a : Word) : List Byte → Except Fault State
  | [] => .ok s
  | b :: bs =>
    match setByte valid s a b with
    | .ok s' => storeBytes valid s' (a + 1) bs
    | .error f => .error f

/-- The low `n` bytes of `v`, the least significant first (R43). -/
def leBytes (n : Nat) (v : Word) : List Byte := (List.range n).map (wordByte v)

/-- `MemWrite(a, n, v)` (R43). -/
def memWrite (valid : Word → Bool) (s : State) (a : Word) (n : Nat) (v : Word) : Except Fault State :=
  storeBytes valid s a (leBytes n v)

/-! ### Console (R31) -/

/-- `ConOut` of several bytes, in order. -/
def State.emit (s : State) (bs : List Byte) : State := { s with conOut := s.conOut ++ bs }

/-- The state with the console input that is left. -/
def State.setConIn (s : State) (bs : List Byte) : State := { s with conIn := bs }

/-! ### Free values -/

/-- The state after a free value has been taken. Log entry 21. -/
def State.nextFree (s : State) : State := { s with freeIndex := s.freeIndex + 1 }

/-- `x[i] <- any 32-bit value` (R183, R188). -/
def State.setRegFree (s : State) (i : RegIdx) : State := (s.setReg i (freeWord s.freeIndex)).nextFree

/-! ### The end of an activation -/

/-- `pc <- pc'` and the termination result: steps 4 and 5 of R93 with `halted <- halt` of R99. -/
def State.complete (s : State) (pc' : Word) (halt : Bool) : State := { s with pc := pc', halted := halt }

/-- The sequential advance `pc <- pc + 4`, modulo 2^32, and no termination (R97, R96). -/
def State.advance (s : State) : State := s.complete (s.pc + 4) false

/-- An activation that writes one register and advances. -/
def writeAndAdvance (s : State) (i : RegIdx) (v : Word) : Result := .next ((s.setReg i v).advance)

/-- An activation that writes the register from a memory read, then advances. -/
def loadAndAdvance (s : State) (i : RegIdx) (r : Except Fault Word) : Result :=
  match r with
  | .ok v => writeAndAdvance s i v
  | .error f => .fault f

/-- An activation whose port accesses gave a state, from which it advances. -/
def advanceAfter (r : Except Fault State) : Result :=
  match r with
  | .ok s' => .next s'.advance
  | .error f => .fault f

end Sys2Proof.Machine
end

