-- ==== Sys2Proof/Machine/Operands.lean ====
section
/-! DEFINITION. Every operand form (spec/30_encoding.md R87): the widened immediates, the effective address, the branch
and jump targets, the shift amounts. -/

namespace Sys2Proof.Machine

/-- `sext_32(v)` (R11). -/
def sext32 {n : Nat} (v : BitVec n) : Word := v.signExtend 32

/-- `zext_32(v)` (R11). -/
def zext32 {n : Nat} (v : BitVec n) : Word := v.setWidth 32

/-- `ext_32(mode, v)` (R11). -/
def ext32 {n : Nat} (mode : ExtMode) (v : BitVec n) : Word :=
  match mode with
  | .zext => zext32 v
  | .sext => sext32 v

/-- `EA = x[b] + sext_32(O)`, modulo 2^32 (R140, R45). -/
def effAddr (s : State) (rb : RegIdx) (off : Half) : Word := s.reg rb + sext32 off

/-- `pc + (sext_32(I_16) << 2)`, from the branch's own address, modulo 2^32 (R160, D6). -/
def branchTarget (pc : Word) (imm : Half) : Word := pc + sext32 imm <<< 2

/-- `(pc & 0xF0000000) | (zext_32(X) << 2)` (R170). -/
def jumpTarget (pc : Word) (x : BitVec 26) : Word := (pc &&& 0xF0000000) ||| (zext32 x <<< 2)

/-- The amount of a shift by a register: `x[s][4:0]` (R120, D5). -/
def shiftAmount (v : Word) : Nat := (v.extractLsb' 0 5).toNat

/-- `I_16 ++ 0x0000` (R135). -/
def upperHalf (imm : Half) : Word := (imm ++ 0#16 : Word)

end Sys2Proof.Machine
end

