-- ==== Sys2Proof/Machine/Flags.lean ====
section
/-! DEFINITION. The hardware has no flag and no condition code (spec/10_state.md R27): the result of a comparison is a
value for a register or is used inside the same branch. The comparisons are here, signed in two's complement (R10). -/

namespace Sys2Proof.Machine

/-- `a <s b` (R10). -/
def ltS (a b : Word) : Bool := decide (a.toInt < b.toInt)

/-- `v <=s 0` (R163). -/
def leZero (v : Word) : Bool := decide (v.toInt ≤ 0)

/-- `v >s 0` (R164). -/
def gtZero (v : Word) : Bool := decide (0 < v.toInt)

/-- `v <s 0` (R165). -/
def ltZero (v : Word) : Bool := decide (v.toInt < 0)

/-- `v >=s 0` (R166). -/
def geZero (v : Word) : Bool := decide (0 ≤ v.toInt)

/-- The result 0x00000001 or 0x00000000 of `SLT` and `SLTI` (R105, R134). -/
def truthWord (c : Bool) : Word := if c then 1 else 0

end Sys2Proof.Machine
end

