-- ==== Sys2Proof/Machine/Arith.lean ====
section
/-! DEFINITION. ADD, ADDU, SUB, MUL, SLT (spec/41_arithmetic.md R100 to R105): modulo 2^32, no trap, no flag. -/

namespace Sys2Proof.Machine

/-- ADD (R101). -/
def execAdd (rd rs rt : RegIdx) (s : State) : Result := writeAndAdvance s rd (s.reg rs + s.reg rt)

/-- ADDU (R102): the same sum. -/
def execAddu (rd rs rt : RegIdx) (s : State) : Result := writeAndAdvance s rd (s.reg rs + s.reg rt)

/-- SUB (R103, D4). -/
def execSub (rd rs rt : RegIdx) (s : State) : Result := writeAndAdvance s rd (s.reg rs - s.reg rt)

/-- MUL (R104): the low 32 bits of the product. -/
def execMul (rd rs rt : RegIdx) (s : State) : Result := writeAndAdvance s rd (s.reg rs * s.reg rt)

/-- SLT (R105, D4). -/
def execSlt (rd rs rt : RegIdx) (s : State) : Result := writeAndAdvance s rd (truthWord (ltS (s.reg rs) (s.reg rt)))

end Sys2Proof.Machine
end

