-- ==== Sys2Proof/Machine/Branch.lean ====
section
/-! DEFINITION. BEQ, BNE, BLEZ, BGTZ, BLTZ, BGEZ (spec/46_branch.md R160 to R167): relative to the branch's own address,
no delay slot, no link. -/

namespace Sys2Proof.Machine

/-- The one effect of a branch: the next pc (R160, R25). -/
def branchIf (s : State) (c : Bool) (imm : Half) : Result :=
  .next (s.complete (if c then branchTarget s.pc imm else s.pc + 4) false)

/-- BEQ (R161). -/
def execBeq (rs rt : RegIdx) (imm : Half) (s : State) : Result := branchIf s (s.reg rs == s.reg rt) imm

/-- BNE (R162). -/
def execBne (rs rt : RegIdx) (imm : Half) (s : State) : Result := branchIf s (s.reg rs != s.reg rt) imm

/-- BLEZ (R163); the `t` field is not used (R88). -/
def execBlez (rs _rt : RegIdx) (imm : Half) (s : State) : Result := branchIf s (leZero (s.reg rs)) imm

/-- BGTZ (R164); the `t` field is not used (R88). -/
def execBgtz (rs _rt : RegIdx) (imm : Half) (s : State) : Result := branchIf s (gtZero (s.reg rs)) imm

/-- BLTZ (R165). -/
def execBltz (rs : RegIdx) (imm : Half) (s : State) : Result := branchIf s (ltZero (s.reg rs)) imm

/-- BGEZ (R166). -/
def execBgez (rs : RegIdx) (imm : Half) (s : State) : Result := branchIf s (geZero (s.reg rs)) imm

end Sys2Proof.Machine
end

