-- ==== Sys2Proof/Machine/Immediate.lean ====
section
/-! DEFINITION. ADDI, ANDI, ORI, XORI, SLTI, LUI (spec/44_immediate.md R130 to R136, D3, D4). -/

namespace Sys2Proof.Machine

/-- ADDI (R130): the immediate sign-extended, modulo 2^32. -/
def execAddi (rt rs : RegIdx) (imm : Half) (s : State) : Result := writeAndAdvance s rt (s.reg rs + sext32 imm)

/-- ANDI (R131): widened by the OPEN parameter `EXT_ANDI`. -/
def execAndi (rt rs : RegIdx) (imm : Half) (s : State) : Result := writeAndAdvance s rt (s.reg rs &&& ext32 extAndi imm)

/-- ORI (R132): widened by the OPEN parameter `EXT_ORI`. -/
def execOri (rt rs : RegIdx) (imm : Half) (s : State) : Result := writeAndAdvance s rt (s.reg rs ||| ext32 extOri imm)

/-- XORI (R133): widened by the OPEN parameter `EXT_XORI`. -/
def execXori (rt rs : RegIdx) (imm : Half) (s : State) : Result := writeAndAdvance s rt (s.reg rs ^^^ ext32 extXori imm)

/-- SLTI (R134): the immediate sign-extended, compared signed. -/
def execSlti (rt rs : RegIdx) (imm : Half) (s : State) : Result :=
  writeAndAdvance s rt (truthWord (ltS (s.reg rs) (sext32 imm)))

/-- LUI (R135). -/
def execLui (rt : RegIdx) (imm : Half) (s : State) : Result := writeAndAdvance s rt (upperHalf imm)

end Sys2Proof.Machine
end

