-- ==== Sys2Proof/Machine/Jump.lean ====
section
/-! DEFINITION. J, JAL, JR (spec/47_jump.md R170 to R174): no delay slot, the target is not checked. -/

namespace Sys2Proof.Machine

/-- J (R171). -/
def execJ (x : BitVec 26) (s : State) : Result := .next (s.complete (jumpTarget s.pc x) false)

/-- JAL (R172): the link is the old `pc + 4`. -/
def execJal (x : BitVec 26) (s : State) : Result :=
  .next ((s.setReg regRa (s.pc + 4)).complete (jumpTarget s.pc x) false)

/-- JR (R173). -/
def execJr (rs : RegIdx) (s : State) : Result := .next (s.complete (s.reg rs) false)

end Sys2Proof.Machine
end

