-- ==== Sys2Proof/Machine/LoadStore.lean ====
section
/-! DEFINITION. LB, LH, LW, SB, SH, SW (spec/45_load_store.md R140 to R147): any address, no alignment requirement
(20_memory.md R46), bytes in ascending order (R47), all reads before the register write (R95). -/

namespace Sys2Proof.Machine

/-- LB (R141). -/
def execLb (rt : RegIdx) (off : Half) (rb : RegIdx) (s : State) : Result :=
  loadAndAdvance s rt ((memRead1 memValid s (effAddr s rb off)).map sext32)

/-- LH (R142). -/
def execLh (rt : RegIdx) (off : Half) (rb : RegIdx) (s : State) : Result :=
  loadAndAdvance s rt ((memRead2 memValid s (effAddr s rb off)).map sext32)

/-- LW (R143). -/
def execLw (rt : RegIdx) (off : Half) (rb : RegIdx) (s : State) : Result :=
  loadAndAdvance s rt (memRead4 memValid s (effAddr s rb off))

/-- SB (R144). -/
def execSb (rt : RegIdx) (off : Half) (rb : RegIdx) (s : State) : Result :=
  advanceAfter (memWrite memValid s (effAddr s rb off) 1 (s.reg rt))

/-- SH (R145, D24). -/
def execSh (rt : RegIdx) (off : Half) (rb : RegIdx) (s : State) : Result :=
  advanceAfter (memWrite memValid s (effAddr s rb off) 2 (s.reg rt))

/-- SW (R146). -/
def execSw (rt : RegIdx) (off : Half) (rb : RegIdx) (s : State) : Result :=
  advanceAfter (memWrite memValid s (effAddr s rb off) 4 (s.reg rt))

end Sys2Proof.Machine
end

