-- ==== Sys2Proof/Machine/Logic.lean ====
section
/-! DEFINITION. AND, OR, XOR (spec/42_logical.md R110 to R112, D4). -/

namespace Sys2Proof.Machine

/-- AND (R110). -/
def execAnd (rd rs rt : RegIdx) (s : State) : Result := writeAndAdvance s rd (s.reg rs &&& s.reg rt)

/-- OR (R111). -/
def execOr (rd rs rt : RegIdx) (s : State) : Result := writeAndAdvance s rd (s.reg rs ||| s.reg rt)

/-- XOR (R112). -/
def execXor (rd rs rt : RegIdx) (s : State) : Result := writeAndAdvance s rd (s.reg rs ^^^ s.reg rt)

end Sys2Proof.Machine
end

