-- ==== Sys2Proof/Machine/Shift.lean ====
section
/-! DEFINITION. SLLV, SRLV, SLL, SRL (spec/43_shift.md R120 to R124, D4, D5): `x[t]` shifted, zeros shifted in. -/

namespace Sys2Proof.Machine

/-- SLLV (R121). -/
def execSllv (rd rt rs : RegIdx) (s : State) : Result := writeAndAdvance s rd (s.reg rt <<< shiftAmount (s.reg rs))

/-- SRLV (R124). -/
def execSrlv (rd rt rs : RegIdx) (s : State) : Result := writeAndAdvance s rd (s.reg rt >>> shiftAmount (s.reg rs))

/-- SLL (R122). -/
def execSll (rd rt : RegIdx) (sa : BitVec 5) (s : State) : Result := writeAndAdvance s rd (s.reg rt <<< sa.toNat)

/-- SRL (R123). -/
def execSrl (rd rt : RegIdx) (sa : BitVec 5) (s : State) : Result := writeAndAdvance s rd (s.reg rt >>> sa.toNat)

end Sys2Proof.Machine
end

