-- ==== Sys2Proof/Machine/Syscall.lean ====
section
/-! DEFINITION. SYSTEMCALL, the catch-all, and its seven services (spec/48_syscall.md R180 to R192). No state is saved,
no mode changes, no vector is taken (60_exceptions.md R206). -/

namespace Sys2Proof.Machine

/-! ### Selector 1: print integer -/

/-- The digits of `n < 10^k` in base ten, no leading zero, the last digit last. -/
def decimalDigits : Nat → Nat → List Byte
  | 0, _ => []
  | k + 1, n =>
    if n < 10 then [BitVec.ofNat 8 (0x30 + n)] else decimalDigits k (n / 10) ++ [BitVec.ofNat 8 (0x30 + n % 10)]

/-- `Decimal(n)`, the shortest decimal numeral in ASCII (R181); ten digits hold every 32-bit value. -/
def decimal (n : Int) : List Byte :=
  if n < 0 then 0x2D :: decimalDigits 10 n.natAbs else decimalDigits 10 n.natAbs

/-- The integer selector 1 prints, by `PRINT_INT_SIGNED` (R181, D15). -/
def printedInt (signed : Bool) (v : Word) : Int := if signed then v.toInt else (v.toNat : Int)

/-- Selector 1 (R181). -/
def printInteger (s : State) : Result := .next (s.emit (decimal (printedInt printIntSigned (s.reg regA0)))).advance

/-! ### Selector 4: print string -/

/-- The loop of R182 from address `a` on: `k` is how many addresses are left to try. When all 2^32 bytes have been seen
and none is zero the loop never ends (U6). -/
def printFrom (valid : Word → Bool) : Nat → Word → State → Except Fault State
  | 0, _, _ => .error .printStringNeverEnds
  | k + 1, a, s =>
    match getByte valid s a with
    | .error f => .error f
    | .ok c => if c = 0 then .ok s else printFrom valid k (a + 1) (s.emit [c])

/-- Selector 4 (R182, D16). -/
def printString (s : State) : Result := advanceAfter (printFrom memValid addressCount (s.reg regA0) s)

/-! ### Selector 5: read integer -/

/-- The white space `ScanInt` skips: 0x20 and 0x09 to 0x0D (R184). -/
def isSpaceByte (b : Byte) : Bool := b == 0x20 || (decide (0x09 ≤ b.toNat) && decide (b.toNat ≤ 0x0D))

/-- The decimal digits 0x30 to 0x39 (R184). -/
def isDigitByte (b : Byte) : Bool := decide (0x30 ≤ b.toNat) && decide (b.toNat ≤ 0x39)

/-- The number a run of digits spells in base ten (R184). -/
def digitsValue (ds : List Byte) : Nat := ds.foldl (fun n d => 10 * n + (d.toNat - 0x30)) 0

/-- An optional sign: whether it was "-", and the input after it (R184). -/
def scanSign : List Byte → Bool × List Byte
  | [] => (false, [])
  | b :: bs => if b = 0x2B then (false, bs) else if b = 0x2D then (true, bs) else (false, b :: bs)

/-- `ScanInt` (R184, D17): the integer and the input left, or `none` for `fail`. Log entry 20. -/
def scanInt (input : List Byte) : Option (Int × List Byte) :=
  let signed := scanSign (input.dropWhile isSpaceByte)
  let digits := signed.2.takeWhile isDigitByte
  if digits = [] then none
  else some (if signed.1 then -(digitsValue digits : Int) else (digitsValue digits : Int), signed.2.dropWhile isDigitByte)

/-- Selector 5 (R183): only the upper clamp is stated, so a number below -2^31 (U4) and a failed scan (U5) leave any
value in the result register, and a failed scan consumes any prefix of the input. -/
def readInteger (s : State) : Result :=
  match scanInt s.conIn with
  | some (n, rest) =>
    if n > 2147483647 then .next ((s.setConIn rest).setReg regRes 0x7FFFFFFF).advance
    else if n < -2147483648 then .next ((s.setConIn rest).setRegFree regRes).advance
    else .next ((s.setConIn rest).setReg regRes (BitVec.ofInt 32 n)).advance
  | none => .next ((s.setConIn (s.conIn.drop (freeCount s.freeIndex))).setRegFree regRes).advance

/-! ### Selector 8: read string -/

/-- The loop of R185 over the console input: stores while `k < limit`, where `limit = L - 1`, and answers the number of
bytes stored and the state. The newline ends the read and is consumed; `nl` says whether it is stored (D18). -/
def readLine (valid : Word → Bool) (nl : NewlineMode) (base : Word) (limit : Nat) :
    List Byte → Nat → State → Except Fault (Nat × State)
  | [], k, s => .ok (k, s)
  | c :: rest, k, s =>
    if k < limit then
      if c = 0x0A then
        match nl with
        | .drop => .ok (k, s.setConIn rest)
        | .store =>
          match setByte valid (s.setConIn rest) (base + BitVec.ofNat 32 k) 0x0A with
          | .ok s' => .ok (k + 1, s')
          | .error f => .error f
      else
        match setByte valid (s.setConIn rest) (base + BitVec.ofNat 32 k) c with
        | .ok s' => readLine valid nl base limit rest (k + 1) s'
        | .error f => .error f
    else .ok (k, s)

/-- The whole of R185 for a length `len ≥ 1`: the line, then zeros to the end of the buffer. -/
def readBuffer (valid : Word → Bool) (nl : NewlineMode) (base : Word) (len : Nat) (s : State) : Except Fault State :=
  match readLine valid nl base (len - 1) s.conIn 0 s with
  | .ok (k, s') => storeBytes valid s' (base + BitVec.ofNat 32 k) (List.replicate (len - k) 0)
  | .error f => .error f

/-- Selector 8 (R185, D18). Length 0 has no meaning (U7): the spec says to refuse it. -/
def readString (s : State) : Result :=
  if s.reg regA1 = 0 then .refused .readStringLengthZero
  else advanceAfter (readBuffer memValid readStrNewline (s.reg regA0) (s.reg regA1).toNat s)

/-! ### Selectors 10, 11, 12 and the others -/

/-- Selector 10 (R186): terminate; `pc` is not advanced (C4). -/
def terminate (s : State) : Result := .next (s.complete s.pc true)

/-- Selector 11 (R187): one byte, whatever its value. -/
def printCharacter (s : State) : Result := .next (s.emit [(s.reg regA0).extractLsb' 0 8]).advance

/-- Selector 12 (R188): the next byte, or any value at end of input (U8). -/
def readCharacter (s : State) : Result :=
  match s.conIn with
  | c :: rest => .next ((s.setConIn rest).setReg regRes (ext32 readCharExt c)).advance
  | [] => .next (s.setRegFree regRes).advance

/-- SYSTEMCALL (R180): the whole selector register is compared (D14); no bit of the word takes part. A selector that
names no service does nothing but advance (R189, R190). -/
def execSystemcall (_w : Word) (s : State) : Result :=
  if s.reg regSel = 1 then printInteger s
  else if s.reg regSel = 4 then printString s
  else if s.reg regSel = 5 then readInteger s
  else if s.reg regSel = 8 then readString s
  else if s.reg regSel = 10 then terminate s
  else if s.reg regSel = 11 then printCharacter s
  else if s.reg regSel = 12 then readCharacter s
  else .next s.advance

end Sys2Proof.Machine
end

