-- ==== Sys2Proof/Machine/Dispatch.lean ====
section
/-! DEFINITION. The activation's dispatch on the instruction (spec/40_execute_cycle.md R93, R94): one arm per tag. -/

namespace Sys2Proof.Machine

def exec (i : Instr) (s : State) : Host.Outcome State Fault Refusal :=
  match i with
  | .add rd rs rt => Sys2Proof.Machine.execAdd rd rs rt s
  | .addu rd rs rt => Sys2Proof.Machine.execAddu rd rs rt s
  | .sub rd rs rt => Sys2Proof.Machine.execSub rd rs rt s
  | .and rd rs rt => Sys2Proof.Machine.execAnd rd rs rt s
  | .or rd rs rt => Sys2Proof.Machine.execOr rd rs rt s
  | .xor rd rs rt => Sys2Proof.Machine.execXor rd rs rt s
  | .sllv rd rt rs => Sys2Proof.Machine.execSllv rd rt rs s
  | .srlv rd rt rs => Sys2Proof.Machine.execSrlv rd rt rs s
  | .slt rd rs rt => Sys2Proof.Machine.execSlt rd rs rt s
  | .mul rd rs rt => Sys2Proof.Machine.execMul rd rs rt s
  | .addi rt rs imm => Sys2Proof.Machine.execAddi rt rs imm s
  | .andi rt rs imm => Sys2Proof.Machine.execAndi rt rs imm s
  | .ori rt rs imm => Sys2Proof.Machine.execOri rt rs imm s
  | .xori rt rs imm => Sys2Proof.Machine.execXori rt rs imm s
  | .slti rt rs imm => Sys2Proof.Machine.execSlti rt rs imm s
  | .sll rd rt sa => Sys2Proof.Machine.execSll rd rt sa s
  | .srl rd rt sa => Sys2Proof.Machine.execSrl rd rt sa s
  | .lui rt imm => Sys2Proof.Machine.execLui rt imm s
  | .lb rt off rb => Sys2Proof.Machine.execLb rt off rb s
  | .lh rt off rb => Sys2Proof.Machine.execLh rt off rb s
  | .lw rt off rb => Sys2Proof.Machine.execLw rt off rb s
  | .sb rt off rb => Sys2Proof.Machine.execSb rt off rb s
  | .sh rt off rb => Sys2Proof.Machine.execSh rt off rb s
  | .sw rt off rb => Sys2Proof.Machine.execSw rt off rb s
  | .beq rs rt imm => Sys2Proof.Machine.execBeq rs rt imm s
  | .bne rs rt imm => Sys2Proof.Machine.execBne rs rt imm s
  | .blez rs rt imm => Sys2Proof.Machine.execBlez rs rt imm s
  | .bgtz rs rt imm => Sys2Proof.Machine.execBgtz rs rt imm s
  | .bltz rs imm => Sys2Proof.Machine.execBltz rs imm s
  | .bgez rs imm => Sys2Proof.Machine.execBgez rs imm s
  | .j x => Sys2Proof.Machine.execJ x s
  | .jal x => Sys2Proof.Machine.execJal x s
  | .jr rs => Sys2Proof.Machine.execJr rs s
  | .systemcall w => Sys2Proof.Machine.execSystemcall w s

end Sys2Proof.Machine
end

