-- ==== Sys2Proof/Machine/Fetch.lean ====
section
/-! DEFINITION. The fetch of an instruction word (spec/20_memory.md R55, 40_execute_cycle.md R99, D10) and the placing of
one in memory. -/

namespace Sys2Proof.Machine

/-- `w <- MemRead(pc, 4)`: little-endian, no alignment check, addresses modulo 2^32. -/
def fetchWord (s : State) : Except Fault Word := memRead4 memValid s s.pc

/-- The state with the word `w` stored little-endian at address `a` (R222). -/
def State.placeWord (s : State) (a w : Word) : State := s.setMem (s.mem.writeList a (leBytes 4 w))

end Sys2Proof.Machine
end

