-- ==== Sys2Proof/Machine/Step.lean ====
section
/-! DEFINITION. One step of the machine (spec/40_execute_cycle.md R99): fetch the word at the program counter and activate
the core on it, while the run has not ended (R98). -/

namespace Sys2Proof.Machine

/-- `Step` (R99). After the halt no activation follows (R98, D12, U14). -/
def step (s : State) : Host.Outcome State Fault Refusal :=
  if s.halted then .refused .runEnded
  else
    match fetchWord s with
    | .ok w => exec (decode w) s
    | .error f => .fault f

/-- The state whose next step runs the instruction with these bits: the word stands at the program counter and the run
has not ended. It stands for the loader of R222 (log entry 27). -/
def State.withFetchWord (s : State) (nbits w : Nat) : State :=
  { s.placeWord s.pc (tableWord nbits w) with halted := false }

end Sys2Proof.Machine
end

