-- ==== Sys2Proof/Machine/Launch.lean ====
section
/-! DEFINITION. The launch state (spec/10_state.md R34, 70_reset_and_hazards.md R221, D11): what the excluded loader and
the host provide before the first activation. -/

namespace Sys2Proof.Machine

/-- The free inputs of a launch (R8, R221). -/
structure Launch where
  /-- `ENTRY_PC`. -/
  entryPc : Word
  /-- `R_INIT`. -/
  rInit : Vector Word 32
  /-- `MEM_INIT`, as the bytes the loader stores, in order; every other byte is 0x00 (log entry 3). -/
  memInit : List (Word × Byte)
  /-- `CON_IN`. -/
  conIn : List Byte
deriving DecidableEq, Repr

/-- The memory image of a list of stored bytes. -/
def loadImage (cells : List (Word × Byte)) : Memory := cells.foldl (fun m c => m.write c.1.toNat c.2) []

/-- The register image: `x[0]` is zero when the register file hardwires it, `R_INIT` otherwise (R34). -/
def launchRegs (hw : Bool) (r : Vector Word 32) : Vector Word 32 := if hw then r.set 0 0 else r

/-- The launch state (R34). -/
def State.launch (l : Launch) : State where
  regs := launchRegs r0Hardwired l.rInit
  pc := l.entryPc
  mem := loadImage l.memInit
  conIn := l.conIn
  conOut := []
  halted := false
  freeIndex := 0

end Sys2Proof.Machine
end

