-- ==== Sys2Proof/Safety.lean ====
section
/-! DEFINITION. The terms in which claims speak of the machine: the invariant every step keeps, what an activation leaves
unchanged, and the spec's own tables of what each tag reads, writes and goes to (spec/10_state.md R23, R25,
20_memory.md R56), written from those tables and not from the meanings. -/

namespace Sys2Proof.Machine

/-- Memory is in canonical form, and a hardwired register 0 holds zero (R21). -/
def State.inv (s : State) : Bool := s.mem.wf && (!r0Hardwired || s.regs[0] == 0)

/-! ### What an activation leaves alone -/

/-- Every register reads as before. -/
def SameRegs (s t : State) : Prop := ∀ r : RegIdx, t.reg r = s.reg r

/-- Every byte of memory reads as before. -/
def SameMemory (s t : State) : Prop := ∀ a : Word, t.byte a = s.byte a

/-- The console streams, and the model's own index of free values, are as before. -/
def SameConsole (s t : State) : Prop := t.conIn = s.conIn ∧ t.conOut = s.conOut ∧ t.freeIndex = s.freeIndex

/-- What register `r` reads as after the one write `x[d] <- v` (R20, R21, for either value of `R0_HARDWIRED`). -/
def readsAfterWrite (s : State) (d : RegIdx) (v : Word) (r : RegIdx) : Word :=
  if r0Hardwired = true ∧ r = 0 then 0 else if r = d then v else s.reg r

/-- The activation completes: it writes `v` to register `d`, goes on at `pc + 4` and does nothing else. -/
def WritesRegister (i : Instr) (s : State) (d : RegIdx) (v : Word) : Prop :=
  ∃ t, exec i s = .next t ∧ (∀ r, t.reg r = readsAfterWrite s d v r) ∧ t.pc = s.pc + 4 ∧ t.halted = false ∧
    SameMemory s t ∧ SameConsole s t

/-- The activation completes: it stores the low `n` bytes of `v` from address `a` on, little-endian, addresses modulo
2^32, goes on at `pc + 4` and does nothing else. -/
def StoresBytes (i : Instr) (s : State) (a : Word) (n : Nat) (v : Word) : Prop :=
  ∃ t, exec i s = .next t ∧
    (∀ x : Word, t.byte x = if (x - a).toNat < n then v.extractLsb' (8 * (x - a).toNat) 8 else s.byte x) ∧
    t.pc = s.pc + 4 ∧ t.halted = false ∧ SameRegs s t ∧ SameConsole s t

/-- The activation completes: it goes on at `target` and does nothing else. -/
def GoesTo (i : Instr) (s : State) (target : Word) : Prop :=
  ∃ t, exec i s = .next t ∧ t.pc = target ∧ t.halted = false ∧ SameRegs s t ∧ SameMemory s t ∧ SameConsole s t

/-! ### The register read and write sets (R23) -/

/-- The registers read (R23). -/
def regReads (i : Instr) (s : State) : List RegIdx :=
  match i with
  | .add _ rs rt | .addu _ rs rt | .sub _ rs rt | .mul _ rs rt | .and _ rs rt | .or _ rs rt | .xor _ rs rt
  | .slt _ rs rt => [rs, rt]
  | .sllv _ rt rs | .srlv _ rt rs => [rt, rs]
  | .sll _ rt _ | .srl _ rt _ => [rt]
  | .addi _ rs _ | .andi _ rs _ | .ori _ rs _ | .xori _ rs _ | .slti _ rs _ => [rs]
  | .lui _ _ => []
  | .lb _ _ rb | .lh _ _ rb | .lw _ _ rb => [rb]
  | .sb rt _ rb | .sh rt _ rb | .sw rt _ rb => [rb, rt]
  | .beq rs rt _ | .bne rs rt _ => [rs, rt]
  | .blez rs _ _ | .bgtz rs _ _ | .bltz rs _ | .bgez rs _ => [rs]
  | .j _ | .jal _ => []
  | .jr rs => [rs]
  | .systemcall _ =>
    if s.reg regSel = 1 ∨ s.reg regSel = 4 ∨ s.reg regSel = 11 then [regSel, regA0]
    else if s.reg regSel = 8 then [regSel, regA0, regA1]
    else [regSel]

/-- The registers written (R23). -/
def regWrites (i : Instr) (s : State) : List RegIdx :=
  match i with
  | .add rd _ _ | .addu rd _ _ | .sub rd _ _ | .mul rd _ _ | .and rd _ _ | .or rd _ _ | .xor rd _ _ | .slt rd _ _
  | .sllv rd _ _ | .srlv rd _ _ | .sll rd _ _ | .srl rd _ _ => [rd]
  | .addi rt _ _ | .andi rt _ _ | .ori rt _ _ | .xori rt _ _ | .slti rt _ _ | .lui rt _ | .lb rt _ _ | .lh rt _ _
  | .lw rt _ _ => [rt]
  | .sb _ _ _ | .sh _ _ _ | .sw _ _ _ | .beq _ _ _ | .bne _ _ _ | .blez _ _ _ | .bgtz _ _ _ | .bltz _ _ | .bgez _ _
  | .j _ | .jr _ => []
  | .jal _ => [regRa]
  | .systemcall _ => if s.reg regSel = 5 ∨ s.reg regSel = 12 then [regRes] else []

/-! ### The memory access list (R56) -/

/-- `a` is one of the `n` addresses from `base` on, modulo 2^32. -/
def inRun (base : Word) (n : Nat) (a : Word) : Prop := (a - base).toNat < n

/-- The activation reads the byte at `a` (R56): a load its 1, 2 or 4 bytes, selector 4 the bytes up to and including the
first zero byte, nothing else. -/
def memReadsAt (i : Instr) (s : State) (a : Word) : Prop :=
  match i with
  | .lb _ off rb => inRun (effAddr s rb off) 1 a
  | .lh _ off rb => inRun (effAddr s rb off) 2 a
  | .lw _ off rb => inRun (effAddr s rb off) 4 a
  | .systemcall _ =>
    s.reg regSel = 4 ∧ ∀ j < (a - s.reg regA0).toNat, s.byte (s.reg regA0 + BitVec.ofNat 32 j) ≠ 0
  | .add _ _ _ | .addu _ _ _ | .sub _ _ _ | .mul _ _ _ | .and _ _ _ | .or _ _ _ | .xor _ _ _ | .slt _ _ _
  | .sllv _ _ _ | .srlv _ _ _ | .sll _ _ _ | .srl _ _ _ | .addi _ _ _ | .andi _ _ _ | .ori _ _ _ | .xori _ _ _
  | .slti _ _ _ | .lui _ _ | .sb _ _ _ | .sh _ _ _ | .sw _ _ _ | .beq _ _ _ | .bne _ _ _ | .blez _ _ _ | .bgtz _ _ _
  | .bltz _ _ | .bgez _ _ | .j _ | .jal _ | .jr _ => False

/-- The activation writes the byte at `a` (R56): a store its 1, 2 or 4 bytes, selector 8 its whole buffer, nothing
else. -/
def memWritesAt (i : Instr) (s : State) (a : Word) : Prop :=
  match i with
  | .sb _ off rb => inRun (effAddr s rb off) 1 a
  | .sh _ off rb => inRun (effAddr s rb off) 2 a
  | .sw _ off rb => inRun (effAddr s rb off) 4 a
  | .systemcall _ => s.reg regSel = 8 ∧ inRun (s.reg regA0) (s.reg regA1).toNat a
  | .add _ _ _ | .addu _ _ _ | .sub _ _ _ | .mul _ _ _ | .and _ _ _ | .or _ _ _ | .xor _ _ _ | .slt _ _ _
  | .sllv _ _ _ | .srlv _ _ _ | .sll _ _ _ | .srl _ _ _ | .addi _ _ _ | .andi _ _ _ | .ori _ _ _ | .xori _ _ _
  | .slti _ _ _ | .lui _ _ | .lb _ _ _ | .lh _ _ _ | .lw _ _ _ | .beq _ _ _ | .bne _ _ _ | .blez _ _ _ | .bgtz _ _ _
  | .bltz _ _ | .bgez _ _ | .j _ | .jal _ | .jr _ => False

/-! ### The next program counter (R25) -/

/-- A branch's next `pc`: the signed 16-bit displacement times 4 from the branch's own address, or `pc + 4`. -/
def branchNext (pc : Word) (taken : Prop) [Decidable taken] (imm : Half) : Word :=
  if taken then BitVec.ofInt 32 ((pc.toNat : Int) + 4 * imm.toInt) else pc + 4

/-- The next `pc` by the class of the tag (R25). -/
def nextPc (i : Instr) (s : State) : Word :=
  match i with
  | .beq rs rt imm => branchNext s.pc (s.reg rs = s.reg rt) imm
  | .bne rs rt imm => branchNext s.pc (s.reg rs ≠ s.reg rt) imm
  | .blez rs _ imm => branchNext s.pc ((s.reg rs).toInt ≤ 0) imm
  | .bgtz rs _ imm => branchNext s.pc ((s.reg rs).toInt > 0) imm
  | .bltz rs imm => branchNext s.pc ((s.reg rs).toInt < 0) imm
  | .bgez rs imm => branchNext s.pc ((s.reg rs).toInt ≥ 0) imm
  | .j x | .jal x => (s.pc.extractLsb' 28 4 ++ x ++ 0#2 : Word)
  | .jr rs => s.reg rs
  | .systemcall _ => if s.reg regSel = 10 then s.pc else s.pc + 4
  | .add _ _ _ | .addu _ _ _ | .sub _ _ _ | .mul _ _ _ | .and _ _ _ | .or _ _ _ | .xor _ _ _ | .slt _ _ _
  | .sllv _ _ _ | .srlv _ _ _ | .sll _ _ _ | .srl _ _ _ | .addi _ _ _ | .andi _ _ _ | .ori _ _ _ | .xori _ _ _
  | .slti _ _ _ | .lui _ _ | .lb _ _ _ | .lh _ _ _ | .lw _ _ _ | .sb _ _ _ | .sh _ _ _ | .sw _ _ _ => s.pc + 4

/-! ### Encodings and widenings as the rules write them -/

/-- A word with the pattern decodes to the instruction `f` makes of it. -/
def DecodesAs (mask value : Word) (f : Word → Instr) : Prop := ∀ w : Word, w &&& mask = value → decode w = f w

/-- The R-layout word `base | s << 21 | t << 16 | d << 11`. -/
def wordR (base : Word) (rs rt rd : RegIdx) : Word :=
  base ||| rs.setWidth 32 <<< 21 ||| rt.setWidth 32 <<< 16 ||| rd.setWidth 32 <<< 11

/-- The immediate as an unsigned number when the mode is `zext`, as a signed one when it is `sext`, modulo 2^32. -/
def widened (m : ExtMode) (imm : Half) : Word :=
  if m = .zext then BitVec.ofNat 32 imm.toNat else BitVec.ofInt 32 imm.toInt

end Sys2Proof.Machine
end

