-- ==== Sys2Proof/Certificates/Slice0/Obligations.lean ====
section
/-! DEFINITION. The statements for the provers, from the numbered rules of spec/. -/

open Sys2Proof Sys2Proof.Machine

/-! ### Encoding and decoding -/

/-- Words written out in spec/95_test_vectors.md 2.2 and in the worked examples decode to their instructions; words that
match no pattern decode to SYSTEMCALL. -/
def Obligations.SpecWordsDecodeToTheirInstructions : Prop :=
  decode 0x00221820 = .add 3 1 2 ∧ decode 0x70221802 = .mul 3 1 2 ∧ decode 0x00221824 = .and 3 1 2 ∧
  decode 0x00221804 = .sllv 3 2 1 ∧ decode 0x00021902 = .srl 3 2 4 ∧ decode 0x00000000 = .sll 0 0 0 ∧
  decode 0x2022FFFF = .addi 2 1 0xFFFF ∧ decode 0x3C028001 = .lui 2 0x8001 ∧
  decode 0x8D2DFFFC = .lw 13 0xFFFC 9 ∧ decode 0xA4220001 = .sh 2 1 1 ∧
  decode 0x10220002 = .beq 1 2 2 ∧ decode 0x04210004 = .bgez 1 4 ∧
  decode 0x08000010 = .j 0x10 ∧ decode 0x0C100008 = .jal 0x100008 ∧ decode 0x03E00008 = .jr 31 ∧
  decode 0x0000000C = .systemcall 0x0000000C ∧ decode 0x00221860 = .systemcall 0x00221860 ∧
  decode 0x3C228001 = .systemcall 0x3C228001 ∧ decode 0x78020001 = .systemcall 0x78020001 ∧
  decode 0x03E10008 = .systemcall 0x03E10008

/-- R61 to R71: each field is the named bit range, as an unsigned number; `op_11` is `op` and `s`, `len_11` is `I_5` and
`end_6` without `d` (by 90_conflicts.md C2, log entry 34), and `I_16` read signed ranges over -32768 to 32767. -/
def Obligations.FieldsAreTheNamedBitRanges : Prop :=
  ∀ w : Word,
    (fieldOp w).toNat = w.toNat / 2 ^ 26 ∧
    (fieldOp11 w).toNat = w.toNat / 2 ^ 21 ∧ (fieldOp11 w).toNat = 32 * (fieldOp w).toNat + (fieldS w).toNat ∧
    (fieldS w).toNat = w.toNat / 2 ^ 21 % 2 ^ 5 ∧
    (fieldT w).toNat = w.toNat / 2 ^ 16 % 2 ^ 5 ∧
    (fieldD w).toNat = w.toNat / 2 ^ 11 % 2 ^ 5 ∧
    (fieldI16 w).toNat = w.toNat % 2 ^ 16 ∧ -32768 ≤ (fieldI16 w).toInt ∧ (fieldI16 w).toInt ≤ 32767 ∧
    (fieldI5 w).toNat = w.toNat / 2 ^ 6 % 2 ^ 5 ∧
    (fieldX w).toNat = w.toNat % 2 ^ 26 ∧
    (fieldEnd21 w).toNat = w.toNat % 2 ^ 21 ∧
    (fieldEnd6 w).toNat = w.toNat % 2 ^ 6 ∧
    (fieldLen11 w).toNat = w.toNat % 2 ^ 11 ∧ (fieldLen11 w).toNat = 64 * (fieldI5 w).toNat + (fieldEnd6 w).toNat

/-- R75 to R82, with LUI by 90_conflicts.md C1 (log entry 8) and SLL and SRL by C3 (log entry 34): each of the 33 tags is
selected exactly by its word condition `w & mask == match`; R83: a word with none of the 33 patterns is SYSTEMCALL. -/
def Obligations.ClassifierIsTheWordConditions : Prop :=
  ∀ w : Word,
    (∀ r ∈ opcodeTable, ((decode w).tag = r.tag ↔ w &&& r.mask = r.value)) ∧
    ((decode w).tag = .systemcall ↔ ∀ r ∈ opcodeTable, w &&& r.mask ≠ r.value)

/-- R84 (the spec derives it): no word has the patterns of two different rows. -/
def Obligations.WordPatternsAreDisjoint : Prop :=
  ∀ w : Word, ∀ r ∈ opcodeTable, ∀ r' ∈ opcodeTable, w &&& r.mask = r.value → w &&& r'.mask = r'.value → r = r'

/-- Decoding the encoding of a well-formed instruction gives it back, every operand at every value. -/
def Obligations.DecodeOfEncodeIsTheInstruction : Prop :=
  ∀ i : Instr, i.wf = true → decode (encode i) = i

/-- Every word decodes to a well-formed instruction whose encoding is that word: no bit is lost and every one of the
2^32 words has exactly one instruction (R74, R85). -/
def Obligations.EncodeOfDecodeIsTheWord : Prop :=
  ∀ w : Word, (decode w).wf = true ∧ encode (decode w) = w

/-- R88, R180: no bit of a catch-all word, and not the `t` field of BLEZ and BGTZ, has any effect. -/
def Obligations.IgnoredBitsHaveNoEffect : Prop :=
  ∀ s : State,
    (∀ w w' : Word, exec (.systemcall w) s = exec (.systemcall w') s) ∧
    (∀ (rs rt rt' : RegIdx) (imm : Half), exec (.blez rs rt imm) s = exec (.blez rs rt' imm) s) ∧
    (∀ (rs rt rt' : RegIdx) (imm : Half), exec (.bgtz rs rt imm) s = exec (.bgtz rs rt' imm) s)

/-! ### The step -/

/-- R99 (the spec's decision D10): a machine that has not halted runs the instruction decoded from the four bytes at
`pc`, little-endian, addresses modulo 2^32, with no alignment condition. -/
def Obligations.StepRunsTheDecodedWord : Prop :=
  ∀ s : State, s.halted = false →
    step s = exec (decode (s.byte (s.pc + 3) ++ s.byte (s.pc + 2) ++ s.byte (s.pc + 1) ++ s.byte s.pc)) s

/-- A word placed at `pc` (log entry 27) is the very word the next step decodes and runs, at any `pc`. -/
def Obligations.StepRunsThePlacedWord : Prop :=
  ∀ (s : State) (w : Word), s.mem.wf = true →
    step (s.withFetchWord 32 w.toNat) = exec (decode w) (s.withFetchWord 32 w.toNat) ∧
    (s.withFetchWord 32 w.toNat).pc = s.pc ∧ SameRegs s (s.withFetchWord 32 w.toNat) ∧
    SameConsole s (s.withFetchWord 32 w.toNat) ∧
    ∀ a, ¬ inRun s.pc 4 a → (s.withFetchWord 32 w.toNat).byte a = s.byte a

/-- D12, U14: after the halt no activation follows; the step is refused by name. -/
def Obligations.StepAfterTheHaltIsRefused : Prop :=
  ∀ s : State, s.halted = true → step s = .refused .runEnded

/-! ### Ports -/

/-- R21: with `R0_HARDWIRED` true register 0 always reads zero and a write to it changes nothing; with false it is an
ordinary register. Every other register reads as last written, in both. -/
def Obligations.RegisterPortReadsWhatWasWritten : Prop :=
  ∀ (r : Vector Word 32) (d j : RegIdx) (v : Word),
    regRead true r 0 = 0 ∧ regWrite true r 0 v = r ∧
    (regRead true (regWrite true r d v) j = if j = 0 then 0 else if j = d then v else regRead true r j) ∧
    (regRead false (regWrite false r d v) j = if j = d then v else regRead false r j)

/-- The spec's decision D2 (log entry 6): register 0 reads zero in every state, after every activation. -/
def Obligations.RegisterZeroReadsZero : Prop :=
  ∀ s : State, s.reg 0 = 0 ∧ ∀ (i : Instr) (t : State), exec i s = .next t → t.reg 0 = 0

/-- The spec's decisions D1 (register roles), D2, D9, D15, D18, D19, and C1, as the model takes them (log entries 5, 6,
8, 9, 18, 22, 24). -/
def Obligations.ParametersHaveTheSpecsValues : Prop :=
  regRa = 31 ∧ regSel = 2 ∧ regRes = 2 ∧ regA0 = 4 ∧ regA1 = 5 ∧ r0Hardwired = true ∧ luiOp11 = 0x1E0 ∧
  (∀ a, memValid a = true) ∧ printIntSigned = true ∧ readStrNewline = .drop ∧ readCharExt = .zext

/-- R42: `MemRead(a, n)` is the little-endian composition of the bytes at `a`, `a + 1`, ..., addresses modulo 2^32. -/
def Obligations.MemReadIsLittleEndian : Prop :=
  ∀ (s : State) (a : Word),
    memRead1 memValid s a = .ok (s.byte a) ∧
    (∃ v, memRead2 memValid s a = .ok v ∧ v.toNat = (s.byte a).toNat + 2 ^ 8 * (s.byte (a + 1)).toNat) ∧
    (∃ v, memRead4 memValid s a = .ok v ∧
      v.toNat = (s.byte a).toNat + 2 ^ 8 * (s.byte (a + 1)).toNat + 2 ^ 16 * (s.byte (a + 2)).toNat +
        2 ^ 24 * (s.byte (a + 3)).toNat)

/-- U3 (log entry 9): under any `MemValid`, a run of byte writes faults at the first invalid address with the bytes below
it already written, and a word read faults at its first invalid address with nothing changed. -/
def Obligations.InvalidAddressFaultsWithLowerBytesWritten : Prop :=
  ∀ (valid : Word → Bool) (s : State) (a : Word) (k : Nat),
    (∀ j < k, valid (a + BitVec.ofNat 32 j) = true) → valid (a + BitVec.ofNat 32 k) = false →
    (∀ bs : List Byte, k < bs.length →
      storeBytes valid s a bs =
        .error (.invalidAddress (a + BitVec.ofNat 32 k) (s.setMem (s.mem.writeList a (bs.take k))))) ∧
    (k < 4 → memRead4 valid s a = .error (.invalidAddress (a + BitVec.ofNat 32 k) s))

/-- Memories in canonical form that read the same at every address are the same list (log entry 3). -/
def Obligations.CanonicalMemoriesAreDeterminedByTheirBytes : Prop :=
  ∀ m m' : Memory, m.wf = true → m'.wf = true → (∀ a : Word, m.read a.toNat = m'.read a.toNat) → m = m'

/-! ### Register arithmetic -/

/-- R101, R102: encodings of ADD and ADDU, and their one effect: register `d` gets the sum modulo 2^32; no trap. -/
def Obligations.AddAndAdduWriteTheWrappedSum : Prop :=
  DecodesAs 0xFC0007FF 0x00000020 (fun w => .add (fieldD w) (fieldS w) (fieldT w)) ∧
  DecodesAs 0xFC0007FF 0x00000021 (fun w => .addu (fieldD w) (fieldS w) (fieldT w)) ∧
  ∀ (s : State) (rd rs rt : RegIdx),
    decode (wordR 0x20 rs rt rd) = .add rd rs rt ∧
    WritesRegister (.add rd rs rt) s rd (BitVec.ofNat 32 ((s.reg rs).toNat + (s.reg rt).toNat)) ∧
    WritesRegister (.addu rd rs rt) s rd (BitVec.ofNat 32 ((s.reg rs).toNat + (s.reg rt).toNat))

/-- MUL as R104 has it, by the spec's decision D4 (log entry 10): its encoding, and its one effect: register `d` gets the
low 32 bits of the product, the same for unsigned and signed operands. -/
def Obligations.MulWritesTheLowProduct : Prop :=
  DecodesAs 0xFC0007FF 0x70000002 (fun w => .mul (fieldD w) (fieldS w) (fieldT w)) ∧
  ∀ (s : State) (rd rs rt : RegIdx),
    decode (wordR 0x70000002 rs rt rd) = .mul rd rs rt ∧
    WritesRegister (.mul rd rs rt) s rd (BitVec.ofNat 32 ((s.reg rs).toNat * (s.reg rt).toNat)) ∧
    WritesRegister (.mul rd rs rt) s rd (BitVec.ofInt 32 ((s.reg rs).toInt * (s.reg rt).toInt))

/-- The spec's decision D4 (log entry 10): SUB is `x[s] - x[t]` modulo 2^32, SLT is 1 when `x[s]` is less than `x[t]` as
signed integers and 0 otherwise. -/
def Obligations.SubAndSltResults : Prop :=
  ∀ (s : State) (rd rs rt : RegIdx),
    WritesRegister (.sub rd rs rt) s rd (BitVec.ofInt 32 ((s.reg rs).toInt - (s.reg rt).toInt)) ∧
    WritesRegister (.slt rd rs rt) s rd (if (s.reg rs).toInt < (s.reg rt).toInt then 1 else 0)

/-- The spec's decision D4 (log entry 10): AND, OR, XOR combine `x[s]` and `x[t]` bit by bit. -/
def Obligations.BitwiseResults : Prop :=
  ∀ (s : State) (rd rs rt : RegIdx),
    (∃ v, WritesRegister (.and rd rs rt) s rd v ∧
      ∀ k < 32, v.getLsbD k = ((s.reg rs).getLsbD k && (s.reg rt).getLsbD k)) ∧
    (∃ v, WritesRegister (.or rd rs rt) s rd v ∧
      ∀ k < 32, v.getLsbD k = ((s.reg rs).getLsbD k || (s.reg rt).getLsbD k)) ∧
    (∃ v, WritesRegister (.xor rd rs rt) s rd v ∧
      ∀ k < 32, v.getLsbD k = ((s.reg rs).getLsbD k != (s.reg rt).getLsbD k))

/-- The spec's decisions D4, D5 (log entries 10, 11): shifts of `x[t]` by `I_5`, or by `x[s]` mod 32, zeros shifted in. -/
def Obligations.ShiftResults : Prop :=
  ∀ (s : State) (rd rt rs : RegIdx) (sa : BitVec 5),
    WritesRegister (.sll rd rt sa) s rd (BitVec.ofNat 32 ((s.reg rt).toNat * 2 ^ sa.toNat)) ∧
    WritesRegister (.srl rd rt sa) s rd (BitVec.ofNat 32 ((s.reg rt).toNat / 2 ^ sa.toNat)) ∧
    WritesRegister (.sllv rd rt rs) s rd (BitVec.ofNat 32 ((s.reg rt).toNat * 2 ^ ((s.reg rs).toNat % 32))) ∧
    WritesRegister (.srlv rd rt rs) s rd (BitVec.ofNat 32 ((s.reg rt).toNat / 2 ^ ((s.reg rs).toNat % 32)))

/-! ### Immediates -/

/-- The spec's decision D4 (log entry 10): ADDI adds the signed immediate modulo 2^32, SLTI compares with it as signed
integers, LUI puts it in bits 31 to 16 with zeros below. -/
def Obligations.AddiSltiLuiResults : Prop :=
  ∀ (s : State) (rt rs : RegIdx) (imm : Half),
    WritesRegister (.addi rt rs imm) s rt (BitVec.ofInt 32 ((s.reg rs).toInt + imm.toInt)) ∧
    WritesRegister (.slti rt rs imm) s rt (if (s.reg rs).toInt < imm.toInt then 1 else 0) ∧
    WritesRegister (.lui rt imm) s rt (BitVec.ofNat 32 (imm.toNat * 65536))

/-- R131 to R133, R136 with the parameters OPEN (decisions D3, D4, log entries 7, 10): ANDI, ORI, XORI use the immediate
widened by their own parameter, whichever value it has; with bit 15 clear the result is the same for both. -/
def Obligations.LogicalImmediateResults : Prop :=
  ∀ (s : State) (rt rs : RegIdx) (imm : Half),
    WritesRegister (.andi rt rs imm) s rt (s.reg rs &&& widened extAndi imm) ∧
    WritesRegister (.ori rt rs imm) s rt (s.reg rs ||| widened extOri imm) ∧
    WritesRegister (.xori rt rs imm) s rt (s.reg rs ^^^ widened extXori imm) ∧
    (imm.getLsbD 15 = false →
      WritesRegister (.andi rt rs imm) s rt (s.reg rs &&& BitVec.ofNat 32 imm.toNat) ∧
      WritesRegister (.ori rt rs imm) s rt (s.reg rs ||| BitVec.ofNat 32 imm.toNat) ∧
      WritesRegister (.xori rt rs imm) s rt (s.reg rs ^^^ BitVec.ofNat 32 imm.toNat))

/-! ### Loads and stores -/

/-- R140 (decisions D4, D7, log entries 10, 13): the effective address is the base register plus the signed 16-bit
offset, modulo 2^32. -/
def Obligations.EffectiveAddressIsBasePlusSignedOffset : Prop :=
  ∀ (s : State) (rb : RegIdx) (off : Half),
    effAddr s rb off = BitVec.ofInt 32 (((s.reg rb).toNat : Int) + off.toInt)

/-- R141 to R143 (decisions D4, D8, log entries 10, 14): LB and LH load the sign-extended byte and little-endian
halfword, LW the little-endian word, at any address. -/
def Obligations.LoadResults : Prop :=
  ∀ (s : State) (rt rb : RegIdx) (off : Half),
    WritesRegister (.lb rt off rb) s rt (BitVec.ofInt 32 (s.byte (effAddr s rb off)).toInt) ∧
    WritesRegister (.lh rt off rb) s rt
      (BitVec.ofInt 32 (BitVec.ofNat 16 ((s.byte (effAddr s rb off)).toNat +
        2 ^ 8 * (s.byte (effAddr s rb off + 1)).toNat)).toInt) ∧
    WritesRegister (.lw rt off rb) s rt
      (BitVec.ofNat 32 ((s.byte (effAddr s rb off)).toNat + 2 ^ 8 * (s.byte (effAddr s rb off + 1)).toNat +
        2 ^ 16 * (s.byte (effAddr s rb off + 2)).toNat + 2 ^ 24 * (s.byte (effAddr s rb off + 3)).toNat))

/-- R144 to R146 (decisions D4, D8, D24, log entries 10, 14, 31): SB, SH, SW store the low 1, 2, 4 bytes of `x[t]` from
the effective address on, little-endian, and change no other byte. -/
def Obligations.StoreResults : Prop :=
  ∀ (s : State) (rt rb : RegIdx) (off : Half), s.mem.wf = true →
    StoresBytes (.sb rt off rb) s (effAddr s rb off) 1 (s.reg rt) ∧
    StoresBytes (.sh rt off rb) s (effAddr s rb off) 2 (s.reg rt) ∧
    StoresBytes (.sw rt off rb) s (effAddr s rb off) 4 (s.reg rt)

/-- R147 (the spec derives it): a store followed by the load of the same width at the same operands gives the stored
value back, sign-extended from the width. -/
def Obligations.StoreThenLoadGivesTheValueBack : Prop :=
  ∀ (s : State) (rt rd rb : RegIdx) (off : Half), s.mem.wf = true →
    (∃ t, exec (.sw rt off rb) s = .next t ∧ WritesRegister (.lw rd off rb) t rd (s.reg rt)) ∧
    (∃ t, exec (.sh rt off rb) s = .next t ∧
      WritesRegister (.lh rd off rb) t rd (BitVec.ofInt 32 ((s.reg rt).setWidth 16).toInt)) ∧
    (∃ t, exec (.sb rt off rb) s = .next t ∧
      WritesRegister (.lb rd off rb) t rd (BitVec.ofInt 32 ((s.reg rt).setWidth 8).toInt))

/-! ### Branches and jumps -/

/-- R160 to R166 (decisions D4, D6, log entries 10, 12): a branch goes to its own address plus 4 times the signed
immediate when its comparison holds, to `pc + 4` otherwise, and does nothing else. -/
def Obligations.BranchResults : Prop :=
  ∀ (s : State) (rs rt : RegIdx) (imm : Half),
    GoesTo (.beq rs rt imm) s (branchNext s.pc (s.reg rs = s.reg rt) imm) ∧
    GoesTo (.bne rs rt imm) s (branchNext s.pc (s.reg rs ≠ s.reg rt) imm) ∧
    GoesTo (.blez rs rt imm) s (branchNext s.pc ((s.reg rs).toInt ≤ 0) imm) ∧
    GoesTo (.bgtz rs rt imm) s (branchNext s.pc ((s.reg rs).toInt > 0) imm) ∧
    GoesTo (.bltz rs imm) s (branchNext s.pc ((s.reg rs).toInt < 0) imm) ∧
    GoesTo (.bgez rs imm) s (branchNext s.pc ((s.reg rs).toInt ≥ 0) imm)

/-- R171, R173: encodings of J and JR (a funct code of 8 with `t`, `d` or `I_5` not zero is SYSTEMCALL) and their one
effect: J goes to the top four bits of its own `pc` over the field times 4, JR to the register's value, unchecked. -/
def Obligations.JumpAndJumpRegisterGoToTheirTargets : Prop :=
  DecodesAs 0xFC000000 0x08000000 (fun w => .j (fieldX w)) ∧
  DecodesAs 0xFC1FFFFF 0x00000008 (fun w => .jr (fieldS w)) ∧
  (∀ w : Word, w &&& 0xFC00003F = 0x00000008 → w &&& 0xFC1FFFFF ≠ 0x00000008 → decode w = .systemcall w) ∧
  ∀ (s : State) (x : BitVec 26) (rs : RegIdx),
    decode (0x08000000 ||| x.setWidth 32) = .j x ∧ decode (rs.setWidth 32 <<< 21 ||| 8) = .jr rs ∧
    GoesTo (.j x) s ((s.pc &&& 0xF0000000) ||| (x.setWidth 32 <<< 2)) ∧
    GoesTo (.j x) s (s.pc.extractLsb' 28 4 ++ x ++ 0#2 : Word) ∧
    GoesTo (.jr rs) s (s.reg rs)

/-- R172 with the return-address register `regRa` (31 by decision D1, log entry 5): JAL links the old `pc + 4` and goes to
the same target as J. -/
def Obligations.JumpAndLinkSavesTheNextAddress : Prop :=
  ∀ (s : State) (x : BitVec 26), ∃ t, exec (.jal x) s = .next t ∧
    (∀ r, t.reg r = readsAfterWrite s regRa (s.pc + 4) r) ∧
    t.pc = (s.pc.extractLsb' 28 4 ++ x ++ 0#2 : Word) ∧ t.halted = false ∧ SameMemory s t ∧ SameConsole s t

/-- The next `pc` of every tag, by its class (the table of R25, with decisions D6, D7 and 90_conflicts.md C4; log entries
12, 13, 34). -/
def Obligations.NextPcIsTheSpecsTable : Prop :=
  ∀ (i : Instr) (s t : State), exec i s = .next t → t.pc = nextPc i s

/-- R26 (the spec derives it): sequential advance, branches and SYSTEMCALL keep `pc mod 4`, J and JAL make it 0, JR makes
it what the register holds. -/
def Obligations.ProgramCounterAlignment : Prop :=
  ∀ (i : Instr) (s t : State), exec i s = .next t →
    (i.tag ≠ .j → i.tag ≠ .jal → i.tag ≠ .jr → t.pc.toNat % 4 = s.pc.toNat % 4) ∧
    (i.tag = .j ∨ i.tag = .jal → t.pc.toNat % 4 = 0) ∧
    (∀ rs, i = .jr rs → t.pc.toNat % 4 = (s.reg rs).toNat % 4)

/-! ### SYSTEMCALL -/

/-- R96, R186: the termination result is true exactly for SYSTEMCALL with selector 10, which changes nothing else, not
even the program counter (90_conflicts.md C4, log entry 34). -/
def Obligations.TerminationIsSelectorTenOnly : Prop :=
  (∀ (i : Instr) (s t : State), exec i s = .next t →
    (t.halted = true ↔ (∃ w, i = .systemcall w) ∧ s.reg regSel = 10)) ∧
  (∀ (w : Word) (s : State), s.reg regSel = 10 → ∃ t, exec (.systemcall w) s = .next t ∧ t.halted = true ∧
    t.pc = s.pc ∧ SameRegs s t ∧ SameMemory s t ∧ SameConsole s t)

/-- A selector other than 1, 4, 5, 8, 10, 11, 12 has no effect but the advance of the program counter (R189 with the
whole register compared by decision D14 and the advance by 90_conflicts.md C7; log entries 17, 34). -/
def Obligations.SelectorWithoutServiceOnlyAdvances : Prop :=
  ∀ (w : Word) (s : State), s.reg regSel ∉ ([1, 4, 5, 8, 10, 11, 12] : List Word) →
    GoesTo (.systemcall w) s (s.pc + 4)

/-- R181 (signed by decision D15, log entry 18): selector 1 appends the shortest decimal numeral of `x[REG_A0]`: a "-"
when the number is negative, then digits without a leading zero that spell its magnitude, and nothing after them. -/
def Obligations.PrintIntegerAppendsTheShortestNumeral : Prop :=
  ∀ (w : Word) (s : State), s.reg regSel = 1 → ∃ t ds, exec (.systemcall w) s = .next t ∧
    t.conOut = s.conOut ++ ((if (s.reg regA0).toInt < 0 then [0x2D] else []) ++ ds) ∧
    digitsValue ds = (s.reg regA0).toInt.natAbs ∧ (∀ d ∈ ds, 0x30 ≤ d.toNat ∧ d.toNat ≤ 0x39) ∧ ds ≠ [] ∧
    (ds.head? = some 0x30 → ds = [0x30]) ∧
    t.pc = s.pc + 4 ∧ t.halted = false ∧ SameRegs s t ∧ SameMemory s t ∧ t.conIn = s.conIn ∧
    t.freeIndex = s.freeIndex

/-- R182: selector 4 appends the bytes from `x[REG_A0]` on, addresses modulo 2^32, up to and not including the first zero
byte. -/
def Obligations.PrintStringAppendsTheBytesBeforeTheZero : Prop :=
  ∀ (w : Word) (s : State) (n : Nat), s.reg regSel = 4 → n < 2 ^ 32 →
    (∀ j < n, s.byte (s.reg regA0 + BitVec.ofNat 32 j) ≠ 0) → s.byte (s.reg regA0 + BitVec.ofNat 32 n) = 0 →
    ∃ t, exec (.systemcall w) s = .next t ∧
      t.conOut = s.conOut ++ (List.range n).map (fun j => s.byte (s.reg regA0 + BitVec.ofNat 32 j)) ∧
      t.pc = s.pc + 4 ∧ t.halted = false ∧ SameRegs s t ∧ SameMemory s t ∧ t.conIn = s.conIn ∧
      t.freeIndex = s.freeIndex

/-- U6 (decision D16, log entry 19): selector 4 is stuck exactly when no byte of memory is zero. -/
def Obligations.PrintStringIsStuckOnlyWithoutAZeroByte : Prop :=
  ∀ (w : Word) (s : State), s.reg regSel = 4 →
    (exec (.systemcall w) s = .fault .printStringNeverEnds ↔ ∀ a : Word, s.byte a ≠ 0)

/-- R183: selector 5 writes the scanned number to the result register, clamped from above to 2^31 - 1; below -2^31 (U4),
and when the scan fails (U5), the register holds some value and nothing says which (log entry 21). The input left is that
of `ScanInt` (R184, decision D17, log entry 20), and after a failed scan what is left behind some prefix (U5, log
entry 21). -/
def Obligations.ReadIntegerClampsFromAbove : Prop :=
  ∀ (w : Word) (s : State), s.reg regSel = 5 → ∃ t v, exec (.systemcall w) s = .next t ∧
    (∀ r, t.reg r = readsAfterWrite s regRes v r) ∧
    (∀ n rest, scanInt s.conIn = some (n, rest) → t.conIn = rest ∧
      (n > 2147483647 → v = 0x7FFFFFFF) ∧ (-2147483648 ≤ n → n ≤ 2147483647 → v.toInt = n)) ∧
    (scanInt s.conIn = none → ∃ k, t.conIn = s.conIn.drop k) ∧
    t.pc = s.pc + 4 ∧ t.halted = false ∧ SameMemory s t ∧ t.conOut = s.conOut

/-- R184 (decision D17, log entry 20): `ScanInt` skips white space, takes an optional sign and the longest run of digits,
answers their value in base ten, and leaves the rest of the input; without a digit it fails. -/
def Obligations.ScanIntFollowsItsGrammar : Prop :=
  ∀ (sp sign ds rest : List Byte),
    (∀ b ∈ sp, b.toNat = 0x20 ∨ (0x09 ≤ b.toNat ∧ b.toNat ≤ 0x0D)) → (sign = [] ∨ sign = [0x2B] ∨ sign = [0x2D]) →
    (∀ b ∈ ds, 0x30 ≤ b.toNat ∧ b.toNat ≤ 0x39) → (∀ b, rest.head? = some b → ¬ (0x30 ≤ b.toNat ∧ b.toNat ≤ 0x39)) →
    (ds ≠ [] → scanInt (sp ++ sign ++ ds ++ rest) =
      some (if sign = [0x2D] then -(digitsValue ds : Int) else (digitsValue ds : Int), rest)) ∧
    (sign ≠ [] → scanInt (sp ++ sign ++ rest) = none) ∧
    ((∀ b, rest.head? = some b → b.toNat ≠ 0x20 ∧ ¬ (0x09 ≤ b.toNat ∧ b.toNat ≤ 0x0D) ∧ b ≠ 0x2B ∧ b ≠ 0x2D) →
      scanInt (sp ++ rest) = none) ∧
    digitsValue [] = 0 ∧ (∀ d : Byte, digitsValue (ds ++ [d]) = 10 * digitsValue ds + (d.toNat - 0x30))

/-- R185 (newline dropped by decision D18, log entry 22): selector 8 with length `L >= 1` stores the bytes before the
first newline among the first `L - 1` input bytes and zeros to the end of the buffer, and consumes them and that
newline. -/
def Obligations.ReadStringFillsTheBuffer : Prop :=
  ∀ (w : Word) (s : State) (inp line : List Byte) (len : Nat), s.reg regSel = 8 → s.mem.wf = true →
    len = (s.reg regA1).toNat → 1 ≤ len → inp = s.conIn.take (len - 1) → line = inp.takeWhile (fun c => c != 0x0A) →
    ∃ t, exec (.systemcall w) s = .next t ∧
      (∀ x : Word, t.byte x =
        if (x - s.reg regA0).toNat < len then line.getD (x - s.reg regA0).toNat 0 else s.byte x) ∧
      t.conIn = s.conIn.drop (if line.length < inp.length then line.length + 1 else line.length) ∧
      t.pc = s.pc + 4 ∧ t.halted = false ∧ SameRegs s t ∧ t.conOut = s.conOut ∧ t.freeIndex = s.freeIndex

/-- U7 (decision D18, log entry 23): selector 8 with length 0 is refused by name. -/
def Obligations.ReadStringOfLengthZeroIsRefused : Prop :=
  ∀ (w : Word) (s : State), s.reg regSel = 8 → s.reg regA1 = 0 →
    exec (.systemcall w) s = .refused .readStringLengthZero

/-- R187, R188 (decisions D19, D20, log entries 24, 25): selector 11 appends the low byte of `x[REG_A0]`; selector 12
takes the next input byte, zero-extended, into the result register, and at end of input that register holds some value
and nothing says which. -/
def Obligations.CharacterServices : Prop :=
  ∀ (w : Word) (s : State),
    (s.reg regSel = 11 → ∃ t, exec (.systemcall w) s = .next t ∧
      t.conOut = s.conOut ++ [(s.reg regA0).setWidth 8] ∧ t.pc = s.pc + 4 ∧ t.halted = false ∧ SameRegs s t ∧
      SameMemory s t ∧ t.conIn = s.conIn ∧ t.freeIndex = s.freeIndex) ∧
    (∀ c rest, s.reg regSel = 12 → s.conIn = c :: rest → ∃ t, exec (.systemcall w) s = .next t ∧
      (∀ r, t.reg r = readsAfterWrite s regRes (BitVec.ofNat 32 c.toNat) r) ∧ t.conIn = rest ∧ t.pc = s.pc + 4 ∧
      t.halted = false ∧ SameMemory s t ∧ t.conOut = s.conOut ∧ t.freeIndex = s.freeIndex) ∧
    (s.reg regSel = 12 → s.conIn = [] → ∃ t v, exec (.systemcall w) s = .next t ∧
      (∀ r, t.reg r = readsAfterWrite s regRes v r) ∧ t.conIn = [] ∧ t.pc = s.pc + 4 ∧ t.halted = false ∧
      SameMemory s t ∧ t.conOut = s.conOut)

/-! ### Rules of the whole machine -/

/-- R23 (register numbers by decision D1, log entry 5): an activation writes no register outside its write set, and what
it writes and does depends on no register outside its read set: two states that agree on everything else and on the
registers read give the same result. The statement compares two runs: where the result of selector 5 or 12 is a free value
(U4, U5, U8), the two runs take the same one only because the model's free values are functions of its counter (log entry
21). -/
def Obligations.RegisterReadAndWriteSets : Prop :=
  ∀ (i : Instr) (s₁ s₂ t₁ : State),
    s₁.pc = s₂.pc → s₁.mem = s₂.mem → s₁.conIn = s₂.conIn → s₁.conOut = s₂.conOut → s₁.freeIndex = s₂.freeIndex →
    (∀ r ∈ regReads i s₁, s₁.reg r = s₂.reg r) → exec i s₁ = .next t₁ →
    ∃ t₂, exec i s₂ = .next t₂ ∧ t₁.pc = t₂.pc ∧ t₁.mem = t₂.mem ∧ t₁.conIn = t₂.conIn ∧ t₁.conOut = t₂.conOut ∧
      t₁.halted = t₂.halted ∧ t₁.freeIndex = t₂.freeIndex ∧
      (∀ r ∈ regWrites i s₁, t₁.reg r = t₂.reg r) ∧
      (∀ r, r ∉ regWrites i s₁ → t₁.reg r = s₁.reg r ∧ t₂.reg r = s₂.reg r)

/-- R56 (addresses by `effAddr`, decisions D4, D7, log entries 10, 13, and the registers of D1, log entry 5): an activation
changes no byte outside the listed writes, and what it does depends on no byte outside the listed reads: with another
memory that agrees on those bytes it does the same to the registers, the program counter, the console and the bytes it
writes. The statement compares two runs: where the result of selector 5 or 12 is a free value (U4, U5, U8), the two runs
take the same one only because the model's free values are functions of its counter (log entry 21). -/
def Obligations.MemoryAccessesAreTheListedOnes : Prop :=
  ∀ (i : Instr) (s t : State), exec i s = .next t →
    (∀ a, ¬ memWritesAt i s a → t.byte a = s.byte a) ∧
    (∀ m : Memory, s.mem.wf = true → m.wf = true → (∀ a, memReadsAt i s a → m.read a.toNat = s.byte a) →
      ∃ t', exec i (s.setMem m) = .next t' ∧ SameRegs t t' ∧ t'.pc = t.pc ∧ t'.halted = t.halted ∧ SameConsole t t' ∧
        (∀ a, memWritesAt i s a → t'.byte a = t.byte a) ∧
        (∀ a, ¬ memWritesAt i s a → t'.byte a = m.read a.toNat))

/-- R31 (decision D21, log entry 26): console output only grows and console input is only consumed from the front; only
selectors 1, 4, 11 write the one and only selectors 5, 8, 12 read the other. -/
def Obligations.ConsoleStreamsOnlyGrowAndShrink : Prop :=
  ∀ (i : Instr) (s t : State), exec i s = .next t →
    (∃ out, t.conOut = s.conOut ++ out) ∧ (∃ taken, s.conIn = taken ++ t.conIn) ∧
    (t.conOut ≠ s.conOut → i.tag = .systemcall ∧ s.reg regSel ∈ ([1, 4, 11] : List Word)) ∧
    (t.conIn ≠ s.conIn → i.tag = .systemcall ∧ s.reg regSel ∈ ([5, 8, 12] : List Word))

/-- R231 (the spec derives it): every activation completes, but for selector 4 over a memory with no zero byte, which is
stuck (U6, decision D16, log entry 19), and selector 8 with length 0, which is refused (U7, decision D18, log entry 23).
R231 excepts a blocked input service as well; that selectors 5, 8 and 12 never block here rests on the console of decision
D21 (R191, U18, log entry 26), and that no access faults on the total memory of decision D9 (log entry 9). -/
def Obligations.EveryOtherActivationCompletes : Prop :=
  ∀ (i : Instr) (s : State),
    (∃ t, exec i s = .next t) ∨
    (i.tag = .systemcall ∧ s.reg regSel = 4 ∧ (∀ a : Word, s.byte a ≠ 0) ∧ exec i s = .fault .printStringNeverEnds) ∨
    (i.tag = .systemcall ∧ s.reg regSel = 8 ∧ s.reg regA1 = 0 ∧ exec i s = .refused .readStringLengthZero)

/-- Every step keeps the invariant: memory stays in canonical form and the hardwired register 0 stays zero. -/
def Obligations.StepKeepsTheMachineInvariant : Prop :=
  ∀ s t : State, s.inv = true → step s = .next t → t.inv = true

/-- R34 (decisions D2, D11; log entries 3, 6): every launch state has the invariant and holds what the launch provides:
`ENTRY_PC`, `R_INIT` but for the hardwired register 0, `CON_IN`, an empty `CON_OUT`, not halted, and `MEM_INIT`: at every
address the byte stored there last, and at an address nothing was stored to the unlisted byte. -/
def Obligations.LaunchStatesHoldTheLaunchInputs : Prop :=
  ∀ l : Launch, (State.launch l).inv = true ∧ (State.launch l).pc = l.entryPc ∧ (State.launch l).conIn = l.conIn ∧
    (State.launch l).conOut = [] ∧ (State.launch l).halted = false ∧
    (∀ r : RegIdx, (State.launch l).reg r = if r0Hardwired = true ∧ r = 0 then 0 else l.rInit[r.toNat]'(r.isLt)) ∧
    ∀ a : Word,
      (∀ before b after, l.memInit = before ++ (a, b) :: after → (∀ c ∈ after, c.1 ≠ a) → (State.launch l).byte a = b) ∧
      ((∀ c ∈ l.memInit, c.1 ≠ a) → (State.launch l).byte a = unlistedByte)

/-- State.reset has the invariant, and is the launch state of the model's own zero inputs (DESIGN CHOICE, log entries 1
to 4 and 21). -/
def Obligations.ResetIsTheLaunchOfZeroInputs : Prop :=
  State.reset.inv = true ∧
  State.reset = State.launch ⟨0, Vector.replicate 32 0, [], []⟩ ∧
  ∀ r : RegIdx, State.reset.reg r = 0
end

