-- ==== Sys2Proof/Laws/State.lean ====
section
/-! SUPPORT. One lemma per field of State and per named update, so that no proof unfolds a record update; and what the
register and byte observations give after each update. -/

namespace Sys2Proof.Machine

variable (s : State)

@[simp] theorem State.setReg_regs (i : RegIdx) (v : Word) : (s.setReg i v).regs = regWrite r0Hardwired s.regs i v := rfl
@[simp] theorem State.setReg_pc (i : RegIdx) (v : Word) : (s.setReg i v).pc = s.pc := rfl
@[simp] theorem State.setReg_mem (i : RegIdx) (v : Word) : (s.setReg i v).mem = s.mem := rfl
@[simp] theorem State.setReg_conIn (i : RegIdx) (v : Word) : (s.setReg i v).conIn = s.conIn := rfl
@[simp] theorem State.setReg_conOut (i : RegIdx) (v : Word) : (s.setReg i v).conOut = s.conOut := rfl
@[simp] theorem State.setReg_halted (i : RegIdx) (v : Word) : (s.setReg i v).halted = s.halted := rfl
@[simp] theorem State.setReg_freeIndex (i : RegIdx) (v : Word) : (s.setReg i v).freeIndex = s.freeIndex := rfl

@[simp] theorem State.setMem_regs (m : Memory) : (s.setMem m).regs = s.regs := rfl
@[simp] theorem State.setMem_pc (m : Memory) : (s.setMem m).pc = s.pc := rfl
@[simp] theorem State.setMem_mem (m : Memory) : (s.setMem m).mem = m := rfl
@[simp] theorem State.setMem_conIn (m : Memory) : (s.setMem m).conIn = s.conIn := rfl
@[simp] theorem State.setMem_conOut (m : Memory) : (s.setMem m).conOut = s.conOut := rfl
@[simp] theorem State.setMem_halted (m : Memory) : (s.setMem m).halted = s.halted := rfl
@[simp] theorem State.setMem_freeIndex (m : Memory) : (s.setMem m).freeIndex = s.freeIndex := rfl

@[simp] theorem State.emit_regs (bs : List Byte) : (s.emit bs).regs = s.regs := rfl
@[simp] theorem State.emit_pc (bs : List Byte) : (s.emit bs).pc = s.pc := rfl
@[simp] theorem State.emit_mem (bs : List Byte) : (s.emit bs).mem = s.mem := rfl
@[simp] theorem State.emit_conIn (bs : List Byte) : (s.emit bs).conIn = s.conIn := rfl
@[simp] theorem State.emit_conOut (bs : List Byte) : (s.emit bs).conOut = s.conOut ++ bs := rfl
@[simp] theorem State.emit_halted (bs : List Byte) : (s.emit bs).halted = s.halted := rfl
@[simp] theorem State.emit_freeIndex (bs : List Byte) : (s.emit bs).freeIndex = s.freeIndex := rfl

@[simp] theorem State.setConIn_regs (bs : List Byte) : (s.setConIn bs).regs = s.regs := rfl
@[simp] theorem State.setConIn_pc (bs : List Byte) : (s.setConIn bs).pc = s.pc := rfl
@[simp] theorem State.setConIn_mem (bs : List Byte) : (s.setConIn bs).mem = s.mem := rfl
@[simp] theorem State.setConIn_conIn (bs : List Byte) : (s.setConIn bs).conIn = bs := rfl
@[simp] theorem State.setConIn_conOut (bs : List Byte) : (s.setConIn bs).conOut = s.conOut := rfl
@[simp] theorem State.setConIn_halted (bs : List Byte) : (s.setConIn bs).halted = s.halted := rfl
@[simp] theorem State.setConIn_freeIndex (bs : List Byte) : (s.setConIn bs).freeIndex = s.freeIndex := rfl

@[simp] theorem State.nextFree_regs : s.nextFree.regs = s.regs := rfl
@[simp] theorem State.nextFree_pc : s.nextFree.pc = s.pc := rfl
@[simp] theorem State.nextFree_mem : s.nextFree.mem = s.mem := rfl
@[simp] theorem State.nextFree_conIn : s.nextFree.conIn = s.conIn := rfl
@[simp] theorem State.nextFree_conOut : s.nextFree.conOut = s.conOut := rfl
@[simp] theorem State.nextFree_halted : s.nextFree.halted = s.halted := rfl
@[simp] theorem State.nextFree_freeIndex : s.nextFree.freeIndex = s.freeIndex + 1 := rfl

@[simp] theorem State.setRegFree_regs (i : RegIdx) : (s.setRegFree i).regs = regWrite r0Hardwired s.regs i (freeWord s.freeIndex) := rfl
@[simp] theorem State.setRegFree_pc (i : RegIdx) : (s.setRegFree i).pc = s.pc := rfl
@[simp] theorem State.setRegFree_mem (i : RegIdx) : (s.setRegFree i).mem = s.mem := rfl
@[simp] theorem State.setRegFree_conIn (i : RegIdx) : (s.setRegFree i).conIn = s.conIn := rfl
@[simp] theorem State.setRegFree_conOut (i : RegIdx) : (s.setRegFree i).conOut = s.conOut := rfl
@[simp] theorem State.setRegFree_halted (i : RegIdx) : (s.setRegFree i).halted = s.halted := rfl
@[simp] theorem State.setRegFree_freeIndex (i : RegIdx) : (s.setRegFree i).freeIndex = s.freeIndex + 1 := rfl

@[simp] theorem State.complete_regs (p : Word) (h : Bool) : (s.complete p h).regs = s.regs := rfl
@[simp] theorem State.complete_pc (p : Word) (h : Bool) : (s.complete p h).pc = p := rfl
@[simp] theorem State.complete_mem (p : Word) (h : Bool) : (s.complete p h).mem = s.mem := rfl
@[simp] theorem State.complete_conIn (p : Word) (h : Bool) : (s.complete p h).conIn = s.conIn := rfl
@[simp] theorem State.complete_conOut (p : Word) (h : Bool) : (s.complete p h).conOut = s.conOut := rfl
@[simp] theorem State.complete_halted (p : Word) (h : Bool) : (s.complete p h).halted = h := rfl
@[simp] theorem State.complete_freeIndex (p : Word) (h : Bool) : (s.complete p h).freeIndex = s.freeIndex := rfl

@[simp] theorem State.advance_regs : s.advance.regs = s.regs := rfl
@[simp] theorem State.advance_pc : s.advance.pc = s.pc + 4 := rfl
@[simp] theorem State.advance_mem : s.advance.mem = s.mem := rfl
@[simp] theorem State.advance_conIn : s.advance.conIn = s.conIn := rfl
@[simp] theorem State.advance_conOut : s.advance.conOut = s.conOut := rfl
@[simp] theorem State.advance_halted : s.advance.halted = false := rfl
@[simp] theorem State.advance_freeIndex : s.advance.freeIndex = s.freeIndex := rfl

/-! ### Register observations -/

theorem regRead_regWrite (hw : Bool) (r : Vector Word 32) (i j : RegIdx) (v : Word) :
    regRead hw (regWrite hw r i v) j = if hw ∧ j = 0 then 0 else if j = i then v else regRead hw r j := by
  unfold regRead regWrite
  by_cases hj : (hw : Prop) ∧ j = 0
  · simp [hj]
  · rw [if_neg hj, if_neg hj]
    by_cases hi : (hw : Prop) ∧ i = 0
    · have hne : j ≠ i := fun h => hj ⟨hi.1, h.trans hi.2⟩
      simp only [if_pos hi, if_neg hne, if_neg hj]
    · simp only [if_neg hi, if_neg hj, Vector.getElem_set]
      by_cases h : j = i
      · simp [h]
      · have h' : i.toNat ≠ j.toNat := fun e => h (BitVec.eq_of_toNat_eq e.symm)
        simp [h, h']

@[simp] theorem State.reg_setReg (i j : RegIdx) (v : Word) :
    (s.setReg i v).reg j = if r0Hardwired ∧ j = 0 then 0 else if j = i then v else s.reg j :=
  regRead_regWrite _ _ _ _ _

@[simp] theorem State.reg_setMem (m : Memory) (j : RegIdx) : (s.setMem m).reg j = s.reg j := rfl
@[simp] theorem State.reg_emit (bs : List Byte) (j : RegIdx) : (s.emit bs).reg j = s.reg j := rfl
@[simp] theorem State.reg_setConIn (bs : List Byte) (j : RegIdx) : (s.setConIn bs).reg j = s.reg j := rfl
@[simp] theorem State.reg_nextFree (j : RegIdx) : s.nextFree.reg j = s.reg j := rfl
@[simp] theorem State.reg_complete (p : Word) (h : Bool) (j : RegIdx) : (s.complete p h).reg j = s.reg j := rfl
@[simp] theorem State.reg_advance (j : RegIdx) : s.advance.reg j = s.reg j := rfl
@[simp] theorem State.reg_setRegFree (i j : RegIdx) :
    (s.setRegFree i).reg j = if r0Hardwired ∧ j = 0 then 0 else if j = i then freeWord s.freeIndex else s.reg j :=
  regRead_regWrite _ _ _ _ _

/-! ### Byte observations -/

@[simp] theorem State.byte_setReg (i : RegIdx) (v a : Word) : (s.setReg i v).byte a = s.byte a := rfl
@[simp] theorem State.byte_emit (bs : List Byte) (a : Word) : (s.emit bs).byte a = s.byte a := rfl
@[simp] theorem State.byte_setConIn (bs : List Byte) (a : Word) : (s.setConIn bs).byte a = s.byte a := rfl
@[simp] theorem State.byte_nextFree (a : Word) : s.nextFree.byte a = s.byte a := rfl
@[simp] theorem State.byte_setRegFree (i : RegIdx) (a : Word) : (s.setRegFree i).byte a = s.byte a := rfl
@[simp] theorem State.byte_complete (p : Word) (h : Bool) (a : Word) : (s.complete p h).byte a = s.byte a := rfl
@[simp] theorem State.byte_advance (a : Word) : s.advance.byte a = s.byte a := rfl
@[simp] theorem State.byte_setMem (m : Memory) (a : Word) : (s.setMem m).byte a = m.read a.toNat := rfl

end Sys2Proof.Machine
end

