-- ==== Sys2Proof/Laws/Memory.lean ====
section
/-! SUPPORT. The laws of the memory image: every operation keeps the canonical form, a read after a write gives the
written byte, a write leaves every other byte alone, and the same for runs of consecutive bytes. -/

namespace Sys2Proof.Machine

theorem Memory.wfFrom_cons {lo a : Nat} {b : Byte} {m : Memory} :
    Memory.wfFrom lo ((a, b) :: m) = true ↔
      lo ≤ a ∧ a < addressCount ∧ b ≠ unlistedByte ∧ Memory.wfFrom (a + 1) m = true := by
  simp only [Memory.wfFrom, Bool.and_eq_true, decide_eq_true_eq, and_assoc]

theorem Memory.wfFrom_mono {m : Memory} {lo lo' : Nat} (h : Memory.wfFrom lo m = true) (hl : lo' ≤ lo) :
    Memory.wfFrom lo' m = true := by
  cases m with
  | nil => rfl
  | cons c m =>
    obtain ⟨a, b⟩ := c
    rw [Memory.wfFrom_cons] at h ⊢
    exact ⟨hl.trans h.1, h.2⟩

/-- A memory whose addresses start at `lo` lists nothing below. -/
theorem Memory.read_of_lt {m : Memory} {lo a : Nat} (h : Memory.wfFrom lo m = true) (ha : a < lo) :
    m.read a = unlistedByte := by
  induction m generalizing lo with
  | nil => rfl
  | cons c m ih =>
    obtain ⟨a', b'⟩ := c
    rw [Memory.wfFrom_cons] at h
    have hne : a ≠ a' := by omega
    simp only [Memory.read, if_neg hne]
    exact ih h.2.2.2 (by omega)

theorem Memory.wfFrom_write {m : Memory} {lo a : Nat} (b : Byte) (h : Memory.wfFrom lo m = true) (hlo : lo ≤ a)
    (ha : a < addressCount) : Memory.wfFrom lo (m.write a b) = true := by
  induction m generalizing lo with
  | nil =>
    unfold Memory.write
    split
    · rfl
    · rename_i hb
      exact Memory.wfFrom_cons.2 ⟨hlo, ha, hb, rfl⟩
  | cons c m ih =>
    obtain ⟨a', b'⟩ := c
    have h' := Memory.wfFrom_cons.1 h
    unfold Memory.write
    split
    · rename_i hlt
      split
      · exact h
      · rename_i hb
        exact Memory.wfFrom_cons.2 ⟨hlo, ha, hb, Memory.wfFrom_cons.2 ⟨hlt, h'.2⟩⟩
    · split
      · rename_i hlt heq
        subst heq
        split
        · exact Memory.wfFrom_mono h'.2.2.2 (by omega)
        · rename_i hb
          exact Memory.wfFrom_cons.2 ⟨hlo, ha, hb, h'.2.2.2⟩
      · exact Memory.wfFrom_cons.2 ⟨h'.1, h'.2.1, h'.2.2.1, ih h'.2.2.2 (by omega)⟩

/-- A write keeps the canonical form. -/
theorem Memory.wf_write {m : Memory} (a : Word) (b : Byte) (h : m.wf = true) : (m.write a.toNat b).wf = true :=
  Memory.wfFrom_write b h (Nat.zero_le _) a.isLt

/-- A write leaves every other byte alone. -/
theorem Memory.read_write_other (m : Memory) {a x : Nat} (b : Byte) (hx : x ≠ a) :
    (m.write a b).read x = m.read x := by
  induction m with
  | nil =>
    unfold Memory.write
    split <;> simp [Memory.read, hx]
  | cons c m ih =>
    obtain ⟨a', b'⟩ := c
    unfold Memory.write
    split
    · split <;> simp [Memory.read, hx]
    · split
      · rename_i heq
        subst heq
        split <;> simp [Memory.read, hx]
      · simp only [Memory.read, ih]

theorem Memory.read_write_same_from {m : Memory} {lo a : Nat} (b : Byte) (h : Memory.wfFrom lo m = true) :
    (m.write a b).read a = b := by
  induction m generalizing lo with
  | nil =>
    unfold Memory.write
    split
    · rename_i hb
      simp [Memory.read, hb]
    · simp [Memory.read]
  | cons c m ih =>
    obtain ⟨a', b'⟩ := c
    have h' := Memory.wfFrom_cons.1 h
    unfold Memory.write
    split
    · rename_i hlt
      split
      · rename_i hb
        subst hb
        have hne : a ≠ a' := by omega
        simp only [Memory.read, if_neg hne]
        exact Memory.read_of_lt h'.2.2.2 (by omega)
      · simp [Memory.read]
    · split
      · rename_i heq
        subst heq
        split
        · rename_i hb
          subst hb
          exact Memory.read_of_lt h'.2.2.2 (by omega)
        · simp [Memory.read]
      · rename_i hne
        simp only [Memory.read, if_neg hne]
        exact ih h'.2.2.2

/-- A read after a write to the same address gives the written byte. -/
theorem Memory.read_write_same {m : Memory} (a : Nat) (b : Byte) (h : m.wf = true) : (m.write a b).read a = b :=
  Memory.read_write_same_from b h

/-- A run of writes keeps the canonical form. -/
theorem Memory.wf_writeList {m : Memory} (a : Word) (bs : List Byte) (h : m.wf = true) :
    (m.writeList a bs).wf = true := by
  induction bs generalizing m a with
  | nil => exact h
  | cons b bs ih => exact ih (a + 1) (Memory.wf_write a b h)

/-- Where `x` stands from `a + 1` on, when it is not `a`. -/
theorem word_sub_succ_toNat {a x : Word} (h : x ≠ a) : (x - (a + 1)).toNat + 1 = (x - a).toNat := by
  have : x.toNat ≠ a.toNat := fun e => h (BitVec.eq_of_toNat_eq e)
  simp only [BitVec.toNat_sub, BitVec.toNat_add]
  have h1 := x.isLt
  have h2 := a.isLt
  simp
  omega

/-- A run of writes leaves every byte outside the run alone. -/
theorem Memory.read_writeList_outside (m : Memory) (a x : Word) (bs : List Byte) (hx : bs.length ≤ (x - a).toNat) :
    (m.writeList a bs).read x.toNat = m.read x.toNat := by
  induction bs generalizing m a with
  | nil => rfl
  | cons b bs ih =>
    have hne : x ≠ a := by
      rintro rfl
      simp at hx
    have hn : x.toNat ≠ a.toNat := fun e => hne (BitVec.eq_of_toNat_eq e)
    have hs := word_sub_succ_toNat hne
    simp only [List.length_cons] at hx
    rw [Memory.writeList, ih _ _ (by omega), Memory.read_write_other _ _ hn]

/-- A run of at most 2^32 writes puts byte `k` of the run at `a + k`, addresses modulo 2^32. -/
theorem Memory.read_writeList_inside {m : Memory} (a x : Word) (bs : List Byte) (hm : m.wf = true)
    (hlen : bs.length ≤ 2 ^ 32) (hx : (x - a).toNat < bs.length) :
    (m.writeList a bs).read x.toNat = bs[(x - a).toNat] := by
  induction bs generalizing m a with
  | nil => simp at hx
  | cons b bs ih =>
    simp only [List.length_cons] at hlen hx
    by_cases hxa : x = a
    · subst hxa
      have hout : bs.length ≤ (x - (x + 1)).toNat := by
        have hone : (1 : Word).toNat = 1 := rfl
        have h1 := x.isLt
        simp only [BitVec.toNat_sub, BitVec.toNat_add, hone]
        omega
      rw [Memory.writeList, Memory.read_writeList_outside _ _ _ _ hout, Memory.read_write_same _ _ hm]
      simp
    · have hs := word_sub_succ_toNat hxa
      rw [Memory.writeList, ih (a + 1) (Memory.wf_write a b hm) (by omega) (by omega)]
      simp only [← hs, List.getElem_cons_succ]

/-- Loading an image gives a memory in canonical form. -/
theorem wf_loadImage (cells : List (Word × Byte)) : (loadImage cells).wf = true := by
  suffices h : ∀ m : Memory, m.wf = true → Memory.wf (cells.foldl (fun m c => m.write c.1.toNat c.2) m) = true from
    h [] rfl
  induction cells with
  | nil => exact fun m h => h
  | cons c cells ih => exact fun m h => ih _ (Memory.wf_write c.1 c.2 h)

/-- Stores to other addresses leave a byte alone. -/
theorem Memory.read_foldl_write_other (cells : List (Word × Byte)) (m : Memory) (a : Word) (h : ∀ c ∈ cells, c.1 ≠ a) :
    Memory.read (cells.foldl (fun m c => m.write c.1.toNat c.2) m) a.toNat = m.read a.toNat := by
  induction cells generalizing m with
  | nil => rfl
  | cons c cells ih =>
    rw [List.foldl_cons, ih _ fun x hx => h x (List.mem_cons_of_mem c hx)]
    exact Memory.read_write_other _ _ fun e => h c (List.mem_cons_self ..) (BitVec.eq_of_toNat_eq e.symm)

/-- Placing a word keeps the canonical form. -/
theorem wf_placeWord {s : State} (a w : Word) (h : s.mem.wf = true) : (s.placeWord a w).mem.wf = true :=
  Memory.wf_writeList a _ h

end Sys2Proof.Machine
end

