-- ==== Sys2Proof/Laws/Access.lean ====
section
/-! SUPPORT. What each shared operation over the byte port answers while `MemValid` is true everywhere (D9): the accesses
never fault, a read gives the bytes, a write gives the memory with the run of bytes replaced. -/

namespace Sys2Proof.Machine

variable (s : State)

@[simp] theorem getByte_memValid (a : Word) : getByte memValid s a = .ok (s.byte a) := rfl

@[simp] theorem setByte_memValid (a : Word) (b : Byte) :
    setByte memValid s a b = .ok (s.setMem (s.mem.write a.toNat b)) := rfl

@[simp] theorem memRead1_memValid (a : Word) : memRead1 memValid s a = .ok (s.byte a) := rfl

@[simp] theorem memRead2_memValid (a : Word) : memRead2 memValid s a = .ok (halfOfBytes (s.byte a) (s.byte (a + 1))) := rfl

@[simp] theorem memRead4_memValid (a : Word) :
    memRead4 memValid s a = .ok (wordOfBytes (s.byte a) (s.byte (a + 1)) (s.byte (a + 2)) (s.byte (a + 3))) := rfl

@[simp] theorem storeBytes_memValid (a : Word) (bs : List Byte) :
    storeBytes memValid s a bs = .ok (s.setMem (s.mem.writeList a bs)) := by
  induction bs generalizing s a with
  | nil => rfl
  | cons b bs ih => exact ih _ _

@[simp] theorem memWrite_memValid (a : Word) (n : Nat) (v : Word) :
    memWrite memValid s a n v = .ok (s.setMem (s.mem.writeList a (leBytes n v))) := storeBytes_memValid _ _ _

@[simp] theorem fetchWord_eq :
    fetchWord s =
      .ok (wordOfBytes (s.byte s.pc) (s.byte (s.pc + 1)) (s.byte (s.pc + 2)) (s.byte (s.pc + 3))) := rfl

@[simp] theorem advanceAfter_ok (s' : State) : advanceAfter (.ok s') = .next s'.advance := rfl

@[simp] theorem loadAndAdvance_ok (i : RegIdx) (v : Word) :
    loadAndAdvance s i (.ok v) = .next ((s.setReg i v).advance) := rfl

@[simp] theorem length_leBytes (n : Nat) (v : Word) : (leBytes n v).length = n := by simp [leBytes]

@[simp] theorem getElem_leBytes (n k : Nat) (v : Word) (h : k < (leBytes n v).length) :
    (leBytes n v)[k] = wordByte v k := by simp [leBytes]

/-- A word is the little-endian composition of its four bytes. -/
theorem wordOfBytes_wordByte (w : Word) :
    wordOfBytes (wordByte w 0) (wordByte w 1) (wordByte w 2) (wordByte w 3) = w := by
  apply BitVec.eq_of_getLsbD_eq
  intro k hk
  simp only [wordOfBytes, wordByte, BitVec.getLsbD_append, BitVec.getLsbD_extractLsb']
  interval_cases k <;> simp

/-- Byte `k` of a placed word stands at `a + k`. -/
theorem byte_placeWord {s : State} (a w x : Word) (h : s.mem.wf = true) :
    (s.placeWord a w).byte x = if (x - a).toNat < 4 then wordByte w (x - a).toNat else s.byte x := by
  unfold State.placeWord
  rw [State.byte_setMem]
  split
  · rename_i hx
    rw [Memory.read_writeList_inside a x _ h (by simp) (by simpa using hx)]
    simp
  · rename_i hx
    rw [Memory.read_writeList_outside _ _ _ _ (by simpa using hx)]
    rfl

end Sys2Proof.Machine
end

