-- ==== Sys2Proof/Laws/Operands.lean ====
section
/-! SUPPORT. What each operand form, comparison and byte composition computes, as plain arithmetic. -/

namespace Sys2Proof.Machine

theorem halfOfBytes_toNat (b0 b1 : Byte) : (halfOfBytes b0 b1).toNat = b0.toNat + 2 ^ 8 * b1.toNat := by
  rw [halfOfBytes, BitVec.toNat_append, ← Nat.shiftLeft_add_eq_or_of_lt b0.isLt, Nat.shiftLeft_eq]
  ring

theorem wordOfBytes_toNat (b0 b1 b2 b3 : Byte) :
    (wordOfBytes b0 b1 b2 b3).toNat = b0.toNat + 2 ^ 8 * b1.toNat + 2 ^ 16 * b2.toNat + 2 ^ 24 * b3.toNat := by
  simp only [wordOfBytes, BitVec.toNat_append]
  rw [← Nat.shiftLeft_add_eq_or_of_lt b2.isLt, ← Nat.shiftLeft_add_eq_or_of_lt b1.isLt,
    ← Nat.shiftLeft_add_eq_or_of_lt b0.isLt]
  simp only [Nat.shiftLeft_eq]
  ring

/-- The low two bytes of a word make its low half. -/
theorem halfOfBytes_wordByte (w : Word) : halfOfBytes (wordByte w 0) (wordByte w 1) = w.setWidth 16 := by
  apply BitVec.eq_of_getLsbD_eq
  intro k hk
  simp only [halfOfBytes, wordByte, BitVec.getLsbD_append, BitVec.getLsbD_extractLsb', BitVec.getLsbD_setWidth]
  interval_cases k <;> simp

theorem wordByte_zero (w : Word) : wordByte w 0 = w.setWidth 8 := by
  apply BitVec.eq_of_getLsbD_eq
  intro k hk
  simp [wordByte, BitVec.getLsbD_setWidth]

theorem sext32_eq_ofInt {n : Nat} (v : BitVec n) : sext32 v = BitVec.ofInt 32 v.toInt := by
  simp [sext32, BitVec.signExtend]

theorem zext32_eq_ofNat {n : Nat} (v : BitVec n) : zext32 v = BitVec.ofNat 32 v.toNat := by
  simp [zext32, BitVec.ofNat_toNat]

/-- Sign extension keeps the signed value. -/
theorem sext32_toInt {n : Nat} (v : BitVec n) (h : n ≤ 32) : (sext32 v).toInt = v.toInt := by
  simp [sext32, BitVec.toInt_signExtend_of_le h]

theorem ext32_zext {n : Nat} (v : BitVec n) : ext32 .zext v = zext32 v := rfl

theorem ext32_sext {n : Nat} (v : BitVec n) : ext32 .sext v = sext32 v := rfl

/-- The two widenings agree when the sign bit is clear. -/
theorem ext32_of_msb_false {n : Nat} (m : ExtMode) (v : BitVec n) (h : v.msb = false) :
    ext32 m v = BitVec.ofNat 32 v.toNat := by
  cases m with
  | zext => exact zext32_eq_ofNat v
  | sext =>
    have hv : v.toInt = (v.toNat : Int) := by rw [BitVec.toInt_eq_msb_cond, h]; rfl
    rw [ext32_sext, sext32_eq_ofInt, hv]
    simp

theorem shiftAmount_eq_mod (v : Word) : shiftAmount v = v.toNat % 32 := by simp [shiftAmount]

theorem upperHalf_toNat (imm : Half) : (upperHalf imm).toNat = imm.toNat * 65536 := by
  rw [upperHalf, BitVec.toNat_append]
  simp [Nat.shiftLeft_eq]

/-- A branch displacement is 4 times the signed immediate. -/
theorem branchTarget_eq_ofInt (pc : Word) (imm : Half) :
    branchTarget pc imm = BitVec.ofInt 32 ((pc.toNat : Int) + 4 * imm.toInt) := by
  have h4 : sext32 imm <<< 2 = BitVec.ofInt 32 (4 * imm.toInt) := by
    rw [BitVec.shiftLeft_eq_mul_twoPow, BitVec.ofInt_mul, ← sext32_eq_ofInt, BitVec.mul_comm]
    rfl
  rw [branchTarget, BitVec.ofInt_add, h4]
  simp

@[simp] theorem ltS_eq_true (a b : Word) : ltS a b = true ↔ a.toInt < b.toInt := by simp [ltS]
@[simp] theorem leZero_eq_true (v : Word) : leZero v = true ↔ v.toInt ≤ 0 := by simp [leZero]
@[simp] theorem gtZero_eq_true (v : Word) : gtZero v = true ↔ 0 < v.toInt := by simp [gtZero]
@[simp] theorem ltZero_eq_true (v : Word) : ltZero v = true ↔ v.toInt < 0 := by simp [ltZero]
@[simp] theorem geZero_eq_true (v : Word) : geZero v = true ↔ 0 ≤ v.toInt := by simp [geZero]

end Sys2Proof.Machine
end

