-- ==== Sys2Proof/Laws/Console.lean ====
section
/-! SUPPORT. What the console loops of SYSTEMCALL answer while `MemValid` is true everywhere: the string that selector 4
prints, the line that selector 8 reads. -/

namespace Sys2Proof.Machine

/-- The `n` bytes of memory from `a` on, addresses modulo 2^32. -/
def bytesFrom (s : State) (a : Word) : Nat → List Byte
  | 0 => []
  | n + 1 => s.byte a :: bytesFrom s (a + 1) n

@[simp] theorem length_bytesFrom (s : State) (a : Word) (n : Nat) : (bytesFrom s a n).length = n := by
  induction n generalizing a with
  | zero => rfl
  | succ n ih => simp [bytesFrom, ih]

theorem word_add_ofNat_succ (a : Word) (n : Nat) : a + BitVec.ofNat 32 (n + 1) = a + 1 + BitVec.ofNat 32 n := by
  rw [show BitVec.ofNat 32 (n + 1) = BitVec.ofNat 32 n + 1 from by rw [BitVec.ofNat_add]; rfl]
  ac_rfl

theorem bytesFrom_emit (s : State) (bs : List Byte) (a : Word) (n : Nat) :
    bytesFrom (s.emit bs) a n = bytesFrom s a n := by
  induction n generalizing a with
  | zero => rfl
  | succ n ih => simp [bytesFrom, ih]

theorem emit_emit (s : State) (bs cs : List Byte) : (s.emit bs).emit cs = s.emit (bs ++ cs) := by
  simp [State.emit, List.append_assoc]

@[simp] theorem emit_nil (s : State) : s.emit [] = s := by simp [State.emit]

/-- The loop of selector 4 stops at the first zero byte, having printed the bytes before it. -/
theorem printFrom_of_zero (s : State) (a : Word) (n k : Nat) (hk : n < k)
    (hne : ∀ j < n, s.byte (a + BitVec.ofNat 32 j) ≠ 0) (hz : s.byte (a + BitVec.ofNat 32 n) = 0) :
    printFrom memValid k a s = .ok (s.emit (bytesFrom s a n)) := by
  induction n generalizing a k s with
  | zero =>
    obtain ⟨k, rfl⟩ : ∃ k', k = k' + 1 := ⟨k - 1, by omega⟩
    simp only [BitVec.ofNat_eq_ofNat, BitVec.add_zero] at hz
    simp [printFrom, hz, bytesFrom]
  | succ n ih =>
    obtain ⟨k, rfl⟩ : ∃ k', k = k' + 1 := ⟨k - 1, by omega⟩
    have h0 : s.byte a ≠ 0 := by simpa using hne 0 (by omega)
    have hstep := ih (s.emit [s.byte a]) (a + 1) k (by omega)
      (fun j hj => by
        rw [State.byte_emit, ← word_add_ofNat_succ]
        exact hne (j + 1) (by omega))
      (by rw [State.byte_emit, ← word_add_ofNat_succ]; exact hz)
    rw [bytesFrom_emit, emit_emit] at hstep
    rw [printFrom, getByte_memValid]
    exact (if_neg h0).trans hstep

/-- The loop of selector 4 never ends when it meets no zero byte. -/
theorem printFrom_of_noZero (s : State) (a : Word) (k : Nat)
    (hne : ∀ j < k, s.byte (a + BitVec.ofNat 32 j) ≠ 0) :
    printFrom memValid k a s = .error .printStringNeverEnds := by
  induction k generalizing a s with
  | zero => rfl
  | succ k ih =>
    have h0 : ¬ s.byte a = 0#8 := by simpa using hne 0 (by omega)
    have hstep := ih (s.emit [s.byte a]) (a + 1)
      (fun j hj => by
        rw [State.byte_emit, ← word_add_ofNat_succ]
        exact hne (j + 1) (by omega))
    rw [printFrom, getByte_memValid]
    exact (if_neg h0).trans hstep

/-- Everything the loop of selector 4 can do: print a run of non-zero bytes that a zero byte ends, or never end. -/
theorem printFrom_cases (s : State) (a : Word) (k : Nat) :
    (∃ n < k, (∀ j < n, s.byte (a + BitVec.ofNat 32 j) ≠ 0) ∧ s.byte (a + BitVec.ofNat 32 n) = 0 ∧
      printFrom memValid k a s = .ok (s.emit (bytesFrom s a n))) ∨
    ((∀ j < k, s.byte (a + BitVec.ofNat 32 j) ≠ 0) ∧ printFrom memValid k a s = .error .printStringNeverEnds) := by
  by_cases h : ∃ n, n < k ∧ s.byte (a + BitVec.ofNat 32 n) = 0
  · left
    obtain ⟨hk, hz⟩ := Nat.find_spec h
    have hne : ∀ j < Nat.find h, s.byte (a + BitVec.ofNat 32 j) ≠ 0 :=
      fun j hj hzj => Nat.find_min h hj ⟨by omega, hzj⟩
    exact ⟨Nat.find h, hk, hne, hz, printFrom_of_zero s a _ k hk hne hz⟩
  · right
    have hne : ∀ j < k, s.byte (a + BitVec.ofNat 32 j) ≠ 0 := fun j hj hz => h ⟨j, hj, hz⟩
    exact ⟨hne, printFrom_of_noZero s a k hne⟩

/-! ### Selector 8, with the newline dropped (D18) -/

/-- The bytes selector 8 stores: up to `limit` bytes, or until a newline or the end of input. -/
def lineOf (input : List Byte) (limit : Nat) : List Byte := (input.take limit).takeWhile (fun c => c != 0x0A)

/-- The input selector 8 leaves: the newline that ended the line is consumed. -/
def afterLine (input : List Byte) (limit : Nat) : List Byte :=
  if (lineOf input limit).length < (input.take limit).length then input.drop ((lineOf input limit).length + 1)
  else input.drop (lineOf input limit).length

@[simp] theorem setConIn_setMem (s : State) (bs : List Byte) (m : Memory) :
    (s.setConIn bs).setMem m = (s.setMem m).setConIn bs := rfl

@[simp] theorem setConIn_setConIn (s : State) (bs cs : List Byte) : (s.setConIn bs).setConIn cs = s.setConIn cs := rfl

@[simp] theorem setMem_setMem (s : State) (m m' : Memory) : (s.setMem m).setMem m' = s.setMem m' := rfl

theorem setConIn_self (s : State) : s.setConIn s.conIn = s := rfl

theorem setMem_self (s : State) : s.setMem s.mem = s := rfl

/-- The loop of selector 8: it stores the line from `base + k` on and leaves the input after it. -/
theorem readLine_drop (base : Word) (limit : Nat) (input : List Byte) (k : Nat) (s : State) (hs : s.conIn = input) :
    readLine memValid .drop base limit input k s =
      .ok (k + (lineOf input (limit - k)).length,
        (s.setMem (s.mem.writeList (base + BitVec.ofNat 32 k) (lineOf input (limit - k)))).setConIn
          (afterLine input (limit - k))) := by
  induction input generalizing k s with
  | nil =>
    simp only [readLine, lineOf, afterLine, List.take_nil, List.takeWhile_nil, List.length_nil, Nat.add_zero,
      Memory.writeList, setMem_self, lt_self_iff_false, if_false, List.drop_nil]
    rw [← hs, setConIn_self]
  | cons c rest ih =>
    by_cases hk : k < limit
    · obtain ⟨d, hd⟩ : ∃ d, limit - k = d + 1 := ⟨limit - k - 1, by omega⟩
      by_cases hc : c = 0x0A#8
      · subst hc
        simp [readLine, hk, hd, lineOf, afterLine, Memory.writeList, setMem_self]
      · have hd' : limit - (k + 1) = d := by omega
        have hb : (c != 0x0A#8) = true := by simpa using hc
        have hstep := ih (k + 1) ((s.setConIn rest).setMem (s.mem.write (base + BitVec.ofNat 32 k).toNat c)) rfl
        have haddr : base + BitVec.ofNat 32 (k + 1) = base + BitVec.ofNat 32 k + 1 := by
          rw [BitVec.ofNat_add]
          exact (BitVec.add_assoc _ _ _).symm
        rw [hd', haddr] at hstep
        simp only [setConIn_setMem, setConIn_setConIn, State.setMem_mem, State.setConIn_mem, setMem_setMem] at hstep
        have hc' : ¬ c = 10#8 := hc
        have hb' : (c != 10#8) = true := hb
        have hline : lineOf (c :: rest) (d + 1) = c :: lineOf rest d := by simp [lineOf, hb']
        have hafter : afterLine (c :: rest) (d + 1) = afterLine rest d := by
          simp only [afterLine, hline, List.length_cons, List.take_succ_cons, Nat.add_lt_add_iff_right, List.drop_succ_cons]
        simp only [readLine, if_pos hk, BitVec.ofNat_eq_ofNat, if_neg hc', setByte_memValid, State.setConIn_mem, hd,
          setConIn_setMem, hline, hafter, hstep, Memory.writeList, List.length_cons]
        congr 2
        omega
    · have hd : limit - k = 0 := by omega
      simp only [readLine, if_neg hk, hd, lineOf, afterLine, List.take_zero, List.takeWhile_nil, List.length_nil,
        Nat.add_zero, Memory.writeList, setMem_self, lt_self_iff_false, if_false, List.drop_zero]
      rw [← hs, setConIn_self]

theorem Memory.writeList_append (m : Memory) (a : Word) (bs cs : List Byte) :
    (m.writeList a bs).writeList (a + BitVec.ofNat 32 bs.length) cs = m.writeList a (bs ++ cs) := by
  induction bs generalizing m a with
  | nil => simp [Memory.writeList]
  | cons b bs ih => simp only [Memory.writeList, List.length_cons, List.cons_append, word_add_ofNat_succ, ih]

theorem length_lineOf_le (input : List Byte) (limit : Nat) : (lineOf input limit).length ≤ limit :=
  ((List.takeWhile_sublist _).length_le).trans (by simp)

/-- The whole of selector 8: the buffer holds the line and then zeros. -/
theorem readBuffer_drop (base : Word) (len : Nat) (s : State) :
    readBuffer memValid .drop base len s =
      .ok ((s.setMem (s.mem.writeList base (lineOf s.conIn (len - 1) ++
          List.replicate (len - (lineOf s.conIn (len - 1)).length) 0))).setConIn (afterLine s.conIn (len - 1))) := by
  have h := readLine_drop base (len - 1) s.conIn 0 s rfl
  simp only [BitVec.add_zero, Nat.zero_add, Nat.sub_zero] at h
  simp only [readBuffer, h, storeBytes_memValid, State.setConIn_mem, State.setMem_mem, setConIn_setMem, setMem_setMem,
    BitVec.ofNat_eq_ofNat, Memory.writeList_append]

end Sys2Proof.Machine
end

