-- ==== Sys2Proof/Laws/PerInstr.lean ====
section
/-! SUPPORT. Statements about every instruction, one lemma per constructor. Family EncodingMatchesRow: the encoded word
has the mask and value pattern of the instruction's own row of the opcode table (R91). -/

namespace Sys2Proof.Laws

/-! The fixed bits of each layout under the table's masks. -/

theorem encodeR_len11 (op f : BitVec 6) (s t d i : BitVec 5) :
    encodeR op s t d i f &&& 0xFC0007FF = encodeR op 0 0 0 i f := by
  apply BitVec.eq_of_getLsbD_eq
  intro k hk
  simp only [encodeR, BitVec.getLsbD_and, BitVec.getLsbD_append]
  interval_cases k <;> simp

theorem encodeR_op11 (op f : BitVec 6) (s t d i : BitVec 5) :
    encodeR op s t d i f &&& 0xFFE0003F = encodeR op s 0 0 0 f := by
  apply BitVec.eq_of_getLsbD_eq
  intro k hk
  simp only [encodeR, BitVec.getLsbD_and, BitVec.getLsbD_append]
  interval_cases k <;> simp

theorem encodeR_jr (op f : BitVec 6) (s t d i : BitVec 5) :
    encodeR op s t d i f &&& 0xFC1FFFFF = encodeR op 0 t d i f := by
  apply BitVec.eq_of_getLsbD_eq
  intro k hk
  simp only [encodeR, BitVec.getLsbD_and, BitVec.getLsbD_append]
  interval_cases k <;> simp

theorem encodeI_op (op : BitVec 6) (s t : BitVec 5) (imm : Half) :
    encodeI op s t imm &&& 0xFC000000 = encodeI op 0 0 0 := by
  apply BitVec.eq_of_getLsbD_eq
  intro k hk
  simp only [encodeI, BitVec.getLsbD_and, BitVec.getLsbD_append]
  interval_cases k <;> simp

theorem encodeI_opT (op : BitVec 6) (s t : BitVec 5) (imm : Half) :
    encodeI op s t imm &&& 0xFC1F0000 = encodeI op 0 t 0 := by
  apply BitVec.eq_of_getLsbD_eq
  intro k hk
  simp only [encodeI, BitVec.getLsbD_and, BitVec.getLsbD_append]
  interval_cases k <;> simp

theorem encodeLui (o : BitVec 11) (t : BitVec 5) (imm : Half) :
    (o ++ t ++ imm : Word) &&& 0xFFE00000 = (o ++ (0#5) ++ (0#16) : Word) := by
  apply BitVec.eq_of_getLsbD_eq
  intro k hk
  simp only [BitVec.getLsbD_and, BitVec.getLsbD_append]
  interval_cases k <;> simp

theorem encodeJ_op (op : BitVec 6) (x : BitVec 26) : encodeJ op x &&& 0xFC000000 = encodeJ op 0 := by
  apply BitVec.eq_of_getLsbD_eq
  intro k hk
  simp only [encodeJ, BitVec.getLsbD_and, BitVec.getLsbD_append]
  interval_cases k <;> simp

/-- The row of a tag other than SYSTEMCALL is the one whose mask and value are given. -/
def RowIs (t : Tag) (mask value : Word) : Prop := ∀ r ∈ opcodeTable, r.tag = t → r.mask = mask ∧ r.value = value

namespace EncodingMatchesRow

/-- The word of a well-formed instruction has the pattern of the instruction's own row. -/
def Statement (i : Instr) : Prop :=
  i.wf = true → ∀ r ∈ opcodeTable, r.tag = i.tag → encode i &&& r.mask = r.value

theorem of_row {i : Instr} (t : Tag) {mask value : Word} (ht : i.tag = t) (hr : RowIs t mask value)
    (h : encode i &&& mask = value) :
    Statement i := by
  intro _ r hmem htag
  obtain ⟨hm, hv⟩ := hr r hmem (htag.trans ht)
  rw [hm, hv, h]

theorem add (rd rs rt : RegIdx) : Statement (.add rd rs rt) :=
  of_row .add rfl (by unfold RowIs; decide) (encodeR_len11 _ _ _ _ _ _)

theorem addu (rd rs rt : RegIdx) : Statement (.addu rd rs rt) :=
  of_row .addu rfl (by unfold RowIs; decide) (encodeR_len11 _ _ _ _ _ _)

theorem sub (rd rs rt : RegIdx) : Statement (.sub rd rs rt) :=
  of_row .sub rfl (by unfold RowIs; decide) (encodeR_len11 _ _ _ _ _ _)

theorem and (rd rs rt : RegIdx) : Statement (.and rd rs rt) :=
  of_row .and rfl (by unfold RowIs; decide) (encodeR_len11 _ _ _ _ _ _)

theorem or (rd rs rt : RegIdx) : Statement (.or rd rs rt) :=
  of_row .or rfl (by unfold RowIs; decide) (encodeR_len11 _ _ _ _ _ _)

theorem xor (rd rs rt : RegIdx) : Statement (.xor rd rs rt) :=
  of_row .xor rfl (by unfold RowIs; decide) (encodeR_len11 _ _ _ _ _ _)

theorem sllv (rd rt rs : RegIdx) : Statement (.sllv rd rt rs) :=
  of_row .sllv rfl (by unfold RowIs; decide) (encodeR_len11 _ _ _ _ _ _)

theorem srlv (rd rt rs : RegIdx) : Statement (.srlv rd rt rs) :=
  of_row .srlv rfl (by unfold RowIs; decide) (encodeR_len11 _ _ _ _ _ _)

theorem slt (rd rs rt : RegIdx) : Statement (.slt rd rs rt) :=
  of_row .slt rfl (by unfold RowIs; decide) (encodeR_len11 _ _ _ _ _ _)

theorem mul (rd rs rt : RegIdx) : Statement (.mul rd rs rt) :=
  of_row .mul rfl (by unfold RowIs; decide) (encodeR_len11 _ _ _ _ _ _)

theorem addi (rt rs : RegIdx) (imm : Half) : Statement (.addi rt rs imm) :=
  of_row .addi rfl (by unfold RowIs; decide) (encodeI_op _ _ _ _)

theorem andi (rt rs : RegIdx) (imm : Half) : Statement (.andi rt rs imm) :=
  of_row .andi rfl (by unfold RowIs; decide) (encodeI_op _ _ _ _)

theorem ori (rt rs : RegIdx) (imm : Half) : Statement (.ori rt rs imm) :=
  of_row .ori rfl (by unfold RowIs; decide) (encodeI_op _ _ _ _)

theorem xori (rt rs : RegIdx) (imm : Half) : Statement (.xori rt rs imm) :=
  of_row .xori rfl (by unfold RowIs; decide) (encodeI_op _ _ _ _)

theorem slti (rt rs : RegIdx) (imm : Half) : Statement (.slti rt rs imm) :=
  of_row .slti rfl (by unfold RowIs; decide) (encodeI_op _ _ _ _)

theorem sll (rd rt : RegIdx) (sa : BitVec 5) : Statement (.sll rd rt sa) :=
  of_row .sll rfl (by unfold RowIs; decide) (encodeR_op11 _ _ _ _ _ _)

theorem srl (rd rt : RegIdx) (sa : BitVec 5) : Statement (.srl rd rt sa) :=
  of_row .srl rfl (by unfold RowIs; decide) (encodeR_op11 _ _ _ _ _ _)

theorem lui (rt : RegIdx) (imm : Half) : Statement (.lui rt imm) :=
  of_row .lui rfl (by unfold RowIs; decide) (encodeLui _ _ _)

theorem lb (rt : RegIdx) (off : Half) (rb : RegIdx) : Statement (.lb rt off rb) :=
  of_row .lb rfl (by unfold RowIs; decide) (encodeI_op _ _ _ _)

theorem lh (rt : RegIdx) (off : Half) (rb : RegIdx) : Statement (.lh rt off rb) :=
  of_row .lh rfl (by unfold RowIs; decide) (encodeI_op _ _ _ _)

theorem lw (rt : RegIdx) (off : Half) (rb : RegIdx) : Statement (.lw rt off rb) :=
  of_row .lw rfl (by unfold RowIs; decide) (encodeI_op _ _ _ _)

theorem sb (rt : RegIdx) (off : Half) (rb : RegIdx) : Statement (.sb rt off rb) :=
  of_row .sb rfl (by unfold RowIs; decide) (encodeI_op _ _ _ _)

theorem sh (rt : RegIdx) (off : Half) (rb : RegIdx) : Statement (.sh rt off rb) :=
  of_row .sh rfl (by unfold RowIs; decide) (encodeI_op _ _ _ _)

theorem sw (rt : RegIdx) (off : Half) (rb : RegIdx) : Statement (.sw rt off rb) :=
  of_row .sw rfl (by unfold RowIs; decide) (encodeI_op _ _ _ _)

theorem beq (rs rt : RegIdx) (imm : Half) : Statement (.beq rs rt imm) :=
  of_row .beq rfl (by unfold RowIs; decide) (encodeI_op _ _ _ _)

theorem bne (rs rt : RegIdx) (imm : Half) : Statement (.bne rs rt imm) :=
  of_row .bne rfl (by unfold RowIs; decide) (encodeI_op _ _ _ _)

theorem blez (rs rt : RegIdx) (imm : Half) : Statement (.blez rs rt imm) :=
  of_row .blez rfl (by unfold RowIs; decide) (encodeI_op _ _ _ _)

theorem bgtz (rs rt : RegIdx) (imm : Half) : Statement (.bgtz rs rt imm) :=
  of_row .bgtz rfl (by unfold RowIs; decide) (encodeI_op _ _ _ _)

theorem bltz (rs : RegIdx) (imm : Half) : Statement (.bltz rs imm) :=
  of_row .bltz rfl (by unfold RowIs; decide) (encodeI_opT _ _ _ _)

theorem bgez (rs : RegIdx) (imm : Half) : Statement (.bgez rs imm) :=
  of_row .bgez rfl (by unfold RowIs; decide) (encodeI_opT _ _ _ _)

theorem j (x : BitVec 26) : Statement (.j x) :=
  of_row .j rfl (by unfold RowIs; decide) (encodeJ_op _ _)

theorem jal (x : BitVec 26) : Statement (.jal x) :=
  of_row .jal rfl (by unfold RowIs; decide) (encodeJ_op _ _)

theorem jr (rs : RegIdx) : Statement (.jr rs) :=
  of_row .jr rfl (by unfold RowIs; decide) (encodeR_jr _ _ _ _ _ _)

theorem systemcall (w : Word) : Statement (.systemcall w) := by
  intro _ r hmem htag
  have h : ∀ r ∈ opcodeTable, r.tag ≠ Tag.systemcall := by decide
  exact absurd htag (h r hmem)

end EncodingMatchesRow

end Sys2Proof.Laws
end

