-- ==== Sys2Proof/Laws/Encoding.lean ====
section
/-! SUPPORT. The fields of an encoded word, the word made of its fields, and the table's masks in terms of the fields. -/

namespace Sys2Proof.Laws

/-! ### Extractors of the three layouts -/

section
variable (op f : BitVec 6) (s t d i : BitVec 5) (imm : Half) (x : BitVec 26) (o : BitVec 11)

@[simp] theorem fieldOp_encodeR : fieldOp (encodeR op s t d i f) = op := by
  apply BitVec.eq_of_getLsbD_eq
  intro k hk
  simp only [fieldOp, encodeR, BitVec.getLsbD_extractLsb', BitVec.getLsbD_append]
  interval_cases k <;> simp

@[simp] theorem fieldS_encodeR : fieldS (encodeR op s t d i f) = s := by
  apply BitVec.eq_of_getLsbD_eq
  intro k hk
  simp only [fieldS, encodeR, BitVec.getLsbD_extractLsb', BitVec.getLsbD_append]
  interval_cases k <;> simp

@[simp] theorem fieldT_encodeR : fieldT (encodeR op s t d i f) = t := by
  apply BitVec.eq_of_getLsbD_eq
  intro k hk
  simp only [fieldT, encodeR, BitVec.getLsbD_extractLsb', BitVec.getLsbD_append]
  interval_cases k <;> simp

@[simp] theorem fieldD_encodeR : fieldD (encodeR op s t d i f) = d := by
  apply BitVec.eq_of_getLsbD_eq
  intro k hk
  simp only [fieldD, encodeR, BitVec.getLsbD_extractLsb', BitVec.getLsbD_append]
  interval_cases k <;> simp

@[simp] theorem fieldI5_encodeR : fieldI5 (encodeR op s t d i f) = i := by
  apply BitVec.eq_of_getLsbD_eq
  intro k hk
  simp only [fieldI5, encodeR, BitVec.getLsbD_extractLsb', BitVec.getLsbD_append]
  interval_cases k <;> simp

@[simp] theorem fieldEnd6_encodeR : fieldEnd6 (encodeR op s t d i f) = f := by
  apply BitVec.eq_of_getLsbD_eq
  intro k hk
  simp only [fieldEnd6, encodeR, BitVec.getLsbD_extractLsb', BitVec.getLsbD_append]
  interval_cases k <;> simp

@[simp] theorem fieldOp11_encodeR : fieldOp11 (encodeR op s t d i f) = (op ++ s : BitVec 11) := by
  apply BitVec.eq_of_getLsbD_eq
  intro k hk
  simp only [fieldOp11, encodeR, BitVec.getLsbD_extractLsb', BitVec.getLsbD_append]
  interval_cases k <;> simp

@[simp] theorem fieldLen11_encodeR : fieldLen11 (encodeR op s t d i f) = (i ++ f : BitVec 11) := by
  apply BitVec.eq_of_getLsbD_eq
  intro k hk
  simp only [fieldLen11, encodeR, BitVec.getLsbD_extractLsb', BitVec.getLsbD_append]
  interval_cases k <;> simp

@[simp] theorem fieldEnd21_encodeR : fieldEnd21 (encodeR op s t d i f) = (t ++ d ++ i ++ f : BitVec 21) := by
  apply BitVec.eq_of_getLsbD_eq
  intro k hk
  simp only [fieldEnd21, encodeR, BitVec.getLsbD_extractLsb', BitVec.getLsbD_append]
  interval_cases k <;> simp

@[simp] theorem fieldOp_encodeI : fieldOp (encodeI op s t imm) = op := by
  apply BitVec.eq_of_getLsbD_eq
  intro k hk
  simp only [fieldOp, encodeI, BitVec.getLsbD_extractLsb', BitVec.getLsbD_append]
  interval_cases k <;> simp

@[simp] theorem fieldS_encodeI : fieldS (encodeI op s t imm) = s := by
  apply BitVec.eq_of_getLsbD_eq
  intro k hk
  simp only [fieldS, encodeI, BitVec.getLsbD_extractLsb', BitVec.getLsbD_append]
  interval_cases k <;> simp

@[simp] theorem fieldT_encodeI : fieldT (encodeI op s t imm) = t := by
  apply BitVec.eq_of_getLsbD_eq
  intro k hk
  simp only [fieldT, encodeI, BitVec.getLsbD_extractLsb', BitVec.getLsbD_append]
  interval_cases k <;> simp

@[simp] theorem fieldI16_encodeI : fieldI16 (encodeI op s t imm) = imm := by
  apply BitVec.eq_of_getLsbD_eq
  intro k hk
  simp only [fieldI16, encodeI, BitVec.getLsbD_extractLsb', BitVec.getLsbD_append]
  interval_cases k <;> simp

@[simp] theorem fieldOp11_encodeI : fieldOp11 (encodeI op s t imm) = (op ++ s : BitVec 11) := by
  apply BitVec.eq_of_getLsbD_eq
  intro k hk
  simp only [fieldOp11, encodeI, BitVec.getLsbD_extractLsb', BitVec.getLsbD_append]
  interval_cases k <;> simp

@[simp] theorem fieldOp_encodeJ : fieldOp (encodeJ op x) = op := by
  apply BitVec.eq_of_getLsbD_eq
  intro k hk
  simp only [fieldOp, encodeJ, BitVec.getLsbD_extractLsb', BitVec.getLsbD_append]
  interval_cases k <;> simp

@[simp] theorem fieldX_encodeJ : fieldX (encodeJ op x) = x := by
  apply BitVec.eq_of_getLsbD_eq
  intro k hk
  simp only [fieldX, encodeJ, BitVec.getLsbD_extractLsb', BitVec.getLsbD_append]
  interval_cases k <;> simp

@[simp] theorem fieldOp11_encodeLui : fieldOp11 (o ++ t ++ imm : Word) = o := by
  apply BitVec.eq_of_getLsbD_eq
  intro k hk
  simp only [fieldOp11, BitVec.getLsbD_extractLsb', BitVec.getLsbD_append]
  interval_cases k <;> simp

@[simp] theorem fieldT_encodeLui : fieldT (o ++ t ++ imm : Word) = t := by
  apply BitVec.eq_of_getLsbD_eq
  intro k hk
  simp only [fieldT, BitVec.getLsbD_extractLsb', BitVec.getLsbD_append]
  interval_cases k <;> simp

@[simp] theorem fieldI16_encodeLui : fieldI16 (o ++ t ++ imm : Word) = imm := by
  apply BitVec.eq_of_getLsbD_eq
  intro k hk
  simp only [fieldI16, BitVec.getLsbD_extractLsb', BitVec.getLsbD_append]
  interval_cases k <;> simp

end

/-! ### A word is made of its fields -/

section
variable (w : Word)

theorem encodeR_fields : encodeR (fieldOp w) (fieldS w) (fieldT w) (fieldD w) (fieldI5 w) (fieldEnd6 w) = w := by
  apply BitVec.eq_of_getLsbD_eq
  intro k hk
  simp only [encodeR, fieldOp, fieldS, fieldT, fieldD, fieldI5, fieldEnd6, BitVec.getLsbD_extractLsb', BitVec.getLsbD_append]
  interval_cases k <;> simp

theorem encodeI_fields : encodeI (fieldOp w) (fieldS w) (fieldT w) (fieldI16 w) = w := by
  apply BitVec.eq_of_getLsbD_eq
  intro k hk
  simp only [encodeI, fieldOp, fieldS, fieldT, fieldI16, BitVec.getLsbD_extractLsb', BitVec.getLsbD_append]
  interval_cases k <;> simp

theorem encodeJ_fields : encodeJ (fieldOp w) (fieldX w) = w := by
  apply BitVec.eq_of_getLsbD_eq
  intro k hk
  simp only [encodeJ, fieldOp, fieldX, BitVec.getLsbD_extractLsb', BitVec.getLsbD_append]
  interval_cases k <;> simp

theorem encodeLui_fields : (fieldOp11 w ++ fieldT w ++ fieldI16 w : Word) = w := by
  apply BitVec.eq_of_getLsbD_eq
  intro k hk
  simp only [fieldOp11, fieldT, fieldI16, BitVec.getLsbD_extractLsb', BitVec.getLsbD_append]
  interval_cases k <;> simp

theorem fieldOp11_eq : fieldOp11 w = (fieldOp w ++ fieldS w : BitVec 11) := by
  apply BitVec.eq_of_getLsbD_eq
  intro k hk
  simp only [fieldOp11, fieldOp, fieldS, BitVec.getLsbD_extractLsb', BitVec.getLsbD_append]
  interval_cases k <;> simp

theorem fieldLen11_eq : fieldLen11 w = (fieldI5 w ++ fieldEnd6 w : BitVec 11) := by
  apply BitVec.eq_of_getLsbD_eq
  intro k hk
  simp only [fieldLen11, fieldI5, fieldEnd6, BitVec.getLsbD_extractLsb', BitVec.getLsbD_append]
  interval_cases k <;> simp

theorem fieldEnd21_eq : fieldEnd21 w = (fieldT w ++ fieldD w ++ fieldI5 w ++ fieldEnd6 w : BitVec 21) := by
  apply BitVec.eq_of_getLsbD_eq
  intro k hk
  simp only [fieldEnd21, fieldT, fieldD, fieldI5, fieldEnd6, BitVec.getLsbD_extractLsb', BitVec.getLsbD_append]
  interval_cases k <;> simp

/-! ### The masks of the opcode table -/

theorem and_maskLen11 : w &&& 0xFC0007FF = (fieldOp w ++ 0#15 ++ fieldLen11 w : Word) := by
  apply BitVec.eq_of_getLsbD_eq
  intro k hk
  simp only [fieldOp, fieldLen11, BitVec.getLsbD_extractLsb', BitVec.getLsbD_append, BitVec.getLsbD_and]
  interval_cases k <;> simp

theorem and_maskOp : w &&& 0xFC000000 = (fieldOp w ++ 0#26 : Word) := by
  apply BitVec.eq_of_getLsbD_eq
  intro k hk
  simp only [fieldOp, BitVec.getLsbD_extractLsb', BitVec.getLsbD_append, BitVec.getLsbD_and]
  interval_cases k <;> simp

theorem and_maskOp11End6 : w &&& 0xFFE0003F = (fieldOp11 w ++ 0#15 ++ fieldEnd6 w : Word) := by
  apply BitVec.eq_of_getLsbD_eq
  intro k hk
  simp only [fieldOp11, fieldEnd6, BitVec.getLsbD_extractLsb', BitVec.getLsbD_append, BitVec.getLsbD_and]
  interval_cases k <;> simp

theorem and_maskOp11 : w &&& 0xFFE00000 = (fieldOp11 w ++ 0#21 : Word) := by
  apply BitVec.eq_of_getLsbD_eq
  intro k hk
  simp only [fieldOp11, BitVec.getLsbD_extractLsb', BitVec.getLsbD_append, BitVec.getLsbD_and]
  interval_cases k <;> simp

theorem and_maskOpT : w &&& 0xFC1F0000 = (fieldOp w ++ 0#5 ++ fieldT w ++ 0#16 : Word) := by
  apply BitVec.eq_of_getLsbD_eq
  intro k hk
  simp only [fieldOp, fieldT, BitVec.getLsbD_extractLsb', BitVec.getLsbD_append, BitVec.getLsbD_and]
  interval_cases k <;> simp

theorem and_maskEnd21 : w &&& 0xFC1FFFFF = (fieldOp w ++ 0#5 ++ fieldEnd21 w : Word) := by
  apply BitVec.eq_of_getLsbD_eq
  intro k hk
  simp only [fieldOp, fieldEnd21, BitVec.getLsbD_extractLsb', BitVec.getLsbD_append, BitVec.getLsbD_and]
  interval_cases k <;> simp

end

end Sys2Proof.Laws
end

