-- ==== Sys2Proof/Laws/Syscall.lean ====
section
/-! SUPPORT. What SYSTEMCALL can do, said once: its service by the selector, and every next state it can answer. -/

namespace Sys2Proof.Machine

/-- SYSTEMCALL with the selector's value put in. -/
theorem exec_systemcall_of_selector (w : Word) (s : State) (n : Word) (h : s.reg regSel = n) :
    exec (.systemcall w) s =
      (if n = 1 then printInteger s else if n = 4 then printString s else if n = 5 then readInteger s
      else if n = 8 then readString s else if n = 10 then terminate s else if n = 11 then printCharacter s
      else if n = 12 then readCharacter s else .next s.advance) := by
  subst h
  rfl

/-- The service of each selector, and the advance of every other one (R180, R189). -/
theorem exec_systemcall_cases (w : Word) (s : State) :
    (s.reg regSel = 1 ∧ exec (.systemcall w) s = printInteger s) ∨
    (s.reg regSel = 4 ∧ exec (.systemcall w) s = printString s) ∨
    (s.reg regSel = 5 ∧ exec (.systemcall w) s = readInteger s) ∨
    (s.reg regSel = 8 ∧ exec (.systemcall w) s = readString s) ∨
    (s.reg regSel = 10 ∧ exec (.systemcall w) s = terminate s) ∨
    (s.reg regSel = 11 ∧ exec (.systemcall w) s = printCharacter s) ∨
    (s.reg regSel = 12 ∧ exec (.systemcall w) s = readCharacter s) ∨
    (s.reg regSel ∉ ([1, 4, 5, 8, 10, 11, 12] : List Word) ∧ exec (.systemcall w) s = .next s.advance) := by
  simp only [exec, execSystemcall]
  split_ifs <;> simp_all

/-- The bytes of a run of memory as a map over the offsets. -/
theorem bytesFrom_eq_map (s : State) (a : Word) (n : Nat) :
    bytesFrom s a n = (List.range n).map (fun j => s.byte (a + BitVec.ofNat 32 j)) := by
  induction n generalizing a with
  | zero => rfl
  | succ n ih =>
    rw [bytesFrom, ih, List.range_succ_eq_map, List.map_cons, List.map_map]
    congr 1
    · simp
    · exact List.map_congr_left fun j _ => congrArg s.byte (word_add_ofNat_succ a j).symm

/-- Selector 4 prints the string before the first zero byte, or is stuck. -/
theorem printString_cases (s : State) :
    (∃ n < addressCount, (∀ j < n, s.byte (s.reg regA0 + BitVec.ofNat 32 j) ≠ 0) ∧
      s.byte (s.reg regA0 + BitVec.ofNat 32 n) = 0 ∧
      printString s = .next (s.emit (bytesFrom s (s.reg regA0) n)).advance) ∨
    ((∀ a : Word, s.byte a ≠ 0) ∧ printString s = .fault .printStringNeverEnds) := by
  rcases printFrom_cases s (s.reg regA0) addressCount with ⟨n, hn, hne, hz, e⟩ | ⟨hne, e⟩
  · exact .inl ⟨n, hn, hne, hz, by rw [printString, e]; rfl⟩
  · refine .inr ⟨fun a ha => hne (a - s.reg regA0).toNat (a - s.reg regA0).isLt ?_, by rw [printString, e]; rfl⟩
    rw [BitVec.ofNat_toNat, BitVec.setWidth_eq, BitVec.add_comm, BitVec.sub_add_cancel]
    exact ha

/-- The state selector 8 leaves (newline dropped). -/
def afterReadString (s : State) : State :=
  ((s.setMem (s.mem.writeList (s.reg regA0)
      (lineOf s.conIn ((s.reg regA1).toNat - 1) ++
        List.replicate ((s.reg regA1).toNat - (lineOf s.conIn ((s.reg regA1).toNat - 1)).length) 0))).setConIn
    (afterLine s.conIn ((s.reg regA1).toNat - 1))).advance

/-- Selector 8 is refused for length 0 and otherwise fills the buffer. -/
theorem readString_eq (s : State) :
    readString s = if s.reg regA1 = 0 then .refused .readStringLengthZero else .next (afterReadString s) := by
  have hnl : readStrNewline = .drop := rfl
  rw [readString, hnl, readBuffer_drop]
  rfl

/-- Everything SYSTEMCALL can answer as a next state. -/
theorem systemcall_next_cases {w : Word} {s t : State} (h : exec (.systemcall w) s = .next t) :
    (s.reg regSel = 1 ∧ t = (s.emit (decimal (printedInt printIntSigned (s.reg regA0)))).advance) ∨
    (s.reg regSel = 4 ∧ ∃ n < addressCount, (∀ j < n, s.byte (s.reg regA0 + BitVec.ofNat 32 j) ≠ 0) ∧
      s.byte (s.reg regA0 + BitVec.ofNat 32 n) = 0 ∧ t = (s.emit (bytesFrom s (s.reg regA0) n)).advance) ∨
    (s.reg regSel = 5 ∧ ∃ n rest, scanInt s.conIn = some (n, rest) ∧
      ((n > 2147483647 ∧ t = ((s.setConIn rest).setReg regRes 0x7FFFFFFF).advance) ∨
       (n < -2147483648 ∧ t = ((s.setConIn rest).setRegFree regRes).advance) ∨
       (¬ n > 2147483647 ∧ ¬ n < -2147483648 ∧
        t = ((s.setConIn rest).setReg regRes (BitVec.ofInt 32 n)).advance))) ∨
    (s.reg regSel = 5 ∧ scanInt s.conIn = none ∧
      t = ((s.setConIn (s.conIn.drop (freeCount s.freeIndex))).setRegFree regRes).advance) ∨
    (s.reg regSel = 8 ∧ s.reg regA1 ≠ 0 ∧ t = afterReadString s) ∨
    (s.reg regSel = 10 ∧ t = s.complete s.pc true) ∨
    (s.reg regSel = 11 ∧ t = (s.emit [(s.reg regA0).extractLsb' 0 8]).advance) ∨
    (s.reg regSel = 12 ∧ ∃ c rest, s.conIn = c :: rest ∧
      t = ((s.setConIn rest).setReg regRes (ext32 readCharExt c)).advance) ∨
    (s.reg regSel = 12 ∧ s.conIn = [] ∧ t = (s.setRegFree regRes).advance) ∨
    (s.reg regSel ∉ ([1, 4, 5, 8, 10, 11, 12] : List Word) ∧ t = s.advance) := by
  rcases exec_systemcall_cases w s with ⟨hs, e⟩ | ⟨hs, e⟩ | ⟨hs, e⟩ | ⟨hs, e⟩ | ⟨hs, e⟩ | ⟨hs, e⟩ | ⟨hs, e⟩ | ⟨hs, e⟩ <;>
    rw [e] at h
  · cases h
    exact .inl ⟨hs, rfl⟩
  · rcases printString_cases s with ⟨n, hn, hne, hz, e'⟩ | ⟨-, e'⟩ <;> rw [e'] at h
    · cases h
      exact .inr (.inl ⟨hs, n, hn, hne, hz, rfl⟩)
    · cases h
  · rw [readInteger] at h
    split at h
    · rename_i n rest hsc
      refine .inr (.inr (.inl ⟨hs, n, rest, hsc, ?_⟩))
      split_ifs at h with a b
      · cases h
        exact .inl ⟨a, rfl⟩
      · cases h
        exact .inr (.inl ⟨b, rfl⟩)
      · cases h
        exact .inr (.inr ⟨a, b, rfl⟩)
    · rename_i hsc
      cases h
      exact .inr (.inr (.inr (.inl ⟨hs, hsc, rfl⟩)))
  · rw [readString_eq] at h
    split_ifs at h with a
    cases h
    iterate 4 right
    exact .inl ⟨hs, a, rfl⟩
  · cases h
    iterate 5 right
    exact .inl ⟨hs, rfl⟩
  · cases h
    iterate 6 right
    exact .inl ⟨hs, rfl⟩
  · rw [readCharacter] at h
    split at h
    · rename_i c rest hc
      cases h
      iterate 7 right
      exact .inl ⟨hs, c, rest, hc, rfl⟩
    · rename_i hc
      cases h
      iterate 8 right
      exact .inl ⟨hs, hc, rfl⟩
  · cases h
    iterate 9 right
    exact ⟨hs, rfl⟩

/-- A scan consumes input from the front only. -/
theorem scanInt_suffix {input rest : List Byte} {n : Int} (h : scanInt input = some (n, rest)) : rest <:+ input := by
  have hsign : ∀ l : List Byte, (scanSign l).2 <:+ l := by
    intro l
    cases l with
    | nil => exact List.suffix_rfl
    | cons b l =>
      simp only [scanSign]
      split_ifs <;> simp
  simp only [scanInt] at h
  split_ifs at h <;>
    (simp only [Option.some.injEq, Prod.mk.injEq] at h
     rw [← h.2]
     exact ((List.dropWhile_suffix _).trans (hsign _)).trans (List.dropWhile_suffix _))

/-! ### The stores, as next states -/

@[simp] theorem exec_sb (rt rb : RegIdx) (off : Half) (s : State) :
    exec (.sb rt off rb) s =
      .next (s.setMem (s.mem.writeList (effAddr s rb off) (leBytes 1 (s.reg rt)))).advance := by simp [exec, execSb]

@[simp] theorem exec_sh (rt rb : RegIdx) (off : Half) (s : State) :
    exec (.sh rt off rb) s =
      .next (s.setMem (s.mem.writeList (effAddr s rb off) (leBytes 2 (s.reg rt)))).advance := by simp [exec, execSh]

@[simp] theorem exec_sw (rt rb : RegIdx) (off : Half) (s : State) :
    exec (.sw rt off rb) s =
      .next (s.setMem (s.mem.writeList (effAddr s rb off) (leBytes 4 (s.reg rt)))).advance := by simp [exec, execSw]

end Sys2Proof.Machine
end

