-- ==== Sys2Proof/Tests/Slice0.lean ====
section
/-! SUPPORT. Tests on single steps, their expected results from spec/95_test_vectors.md (the vector's id stands in each
docstring), and for each statement of the obligations that has hypotheses a concrete case that meets them. -/

namespace Sys2Proof.Tests

open Sys2Proof Sys2Proof.Machine

/-! ### Helpers -/

/-- The activation answered a next state with the property. -/
def onNext (o : Result) (f : State → Bool) : Bool :=
  match o with
  | .next t => f t
  | .fault _ => false
  | .refused _ => false

theorem eq_next {o : Result} {t : State} (h : onNext o (fun u => decide (u = t)) = true) : o = .next t := by
  cases o <;> simp_all [onNext]

/-- The activation was refused for this reason. -/
def isRefused (o : Result) (r : Refusal) : Bool :=
  match o with
  | .next _ => false
  | .fault _ => false
  | .refused r' => decide (r' = r)

/-- A machine at `pc = 0x1000` with some registers set. -/
def cpu (rs : List (RegIdx × Word)) : State :=
  rs.foldl (fun s r => s.setReg r.1 r.2) { State.reset with pc := 0x1000 }

/-- The same with some bytes stored. -/
def cpuMem (rs : List (RegIdx × Word)) (m : List (Word × Byte)) : State := (cpu rs).setMem (loadImage m)

/-- The same with console input. -/
def cpuIn (rs : List (RegIdx × Word)) (input : List Byte) : State := (cpu rs).setConIn input

/-- The word's activation leaves `v` in register `d` and goes on at the next word. -/
def gives (w : Word) (s : State) (d : RegIdx) (v : Word) : Bool :=
  onNext (exec (decode w) s) fun t => t.reg d == v && t.pc == s.pc + 4 && !t.halted

/-- The word's activation goes to `target`. -/
def goesTo (w : Word) (s : State) (target : Word) : Bool := onNext (exec (decode w) s) fun t => t.pc == target && !t.halted

/-- The bytes memory holds from `a` on. -/
def bytes (s : State) (a : Word) (n : Nat) : List Byte := (List.range n).map fun k => s.byte (a + BitVec.ofNat 32 k)

/-! ### Well-formedness: the one check refuses an ill-formed term -/

/-- The word of an ADD is no catch-all word. -/
theorem test_wf_refuses_classified_systemcall : (Instr.systemcall 0x00221820).wf = false := by decide

theorem test_wf_accepts_catch_all_word : (Instr.systemcall 0x0000000C).wf = true := by decide

/-! ### Decoding: every constructor's word, written out in 95_test_vectors.md part 2 -/

/-- E-ADD-1, E-R-1, E-MUL-1. -/
theorem test_decode_register_arithmetic :
    decode 0x00221820 = .add 3 1 2 ∧ decode 0x00221821 = .addu 3 1 2 ∧ decode 0x00221822 = .sub 3 1 2 ∧
    decode 0x00221824 = .and 3 1 2 ∧ decode 0x00221825 = .or 3 1 2 ∧ decode 0x00221826 = .xor 3 1 2 ∧
    decode 0x0022182A = .slt 3 1 2 ∧ decode 0x70221802 = .mul 3 1 2 := by decide

/-- E-R-1, E-SLL-1, E-SLL-4, E-SRL-1, X-SRL-2. -/
theorem test_decode_shifts :
    decode 0x00221804 = .sllv 3 2 1 ∧ decode 0x00221806 = .srlv 3 2 1 ∧ decode 0x00021900 = .sll 3 2 4 ∧
    decode 0x00000140 = .sll 0 0 5 ∧ decode 0x00021902 = .srl 3 2 4 ∧ decode 0x00021FC2 = .srl 3 2 31 := by decide

/-- E-I-1, E-LUI-1. -/
theorem test_decode_immediates :
    decode 0x2022FFFF = .addi 2 1 0xFFFF ∧ decode 0x30228001 = .andi 2 1 0x8001 ∧ decode 0x34228001 = .ori 2 1 0x8001 ∧
    decode 0x38228001 = .xori 2 1 0x8001 ∧ decode 0x2822FFFF = .slti 2 1 0xFFFF ∧ decode 0x3C028001 = .lui 2 0x8001 := by
  decide

/-- E-LS-1, X-LW-2, X-SW-2. -/
theorem test_decode_loads_and_stores :
    decode 0x80220000 = .lb 2 0 1 ∧ decode 0x84220000 = .lh 2 0 1 ∧ decode 0x8C22FFFC = .lw 2 0xFFFC 1 ∧
    decode 0xA0220000 = .sb 2 0 1 ∧ decode 0xA4220001 = .sh 2 1 1 ∧ decode 0xAC22FFFE = .sw 2 0xFFFE 1 := by decide

/-- E-B-1 to E-B-5. -/
theorem test_decode_branches :
    decode 0x10220002 = .beq 1 2 2 ∧ decode 0x14220010 = .bne 1 2 0x10 ∧ decode 0x18200004 = .blez 1 0 4 ∧
    decode 0x1C200004 = .bgtz 1 0 4 ∧ decode 0x04200004 = .bltz 1 4 ∧ decode 0x04210004 = .bgez 1 4 ∧
    decode 0x1000FFFF = .beq 0 0 0xFFFF ∧ decode 0x04220004 = .systemcall 0x04220004 := by decide

/-- E-J-1, E-J-2, E-JR-1, E-JR-2. -/
theorem test_decode_jumps :
    decode 0x08000010 = .j 0x10 ∧ decode 0x0BFFFFFF = .j 0x3FFFFFF ∧ decode 0x0C100008 = .jal 0x100008 ∧
    decode 0x03E00008 = .jr 31 ∧ decode 0x00000008 = .jr 0 ∧ decode 0x03E00048 = .systemcall 0x03E00048 := by decide

/-- E-ADD-2, E-R-2, E-MUL-2, E-I-2, E-SLL-3, E-SRL-2, E-LUI-2, E-LUI-3, E-LS-2, E-B-4, E-JR-2, E-JR-3, E-SYS-1,
E-SYS-2: words near a pattern that match none. -/
theorem test_decode_catch_all :
    ([0x00221860, 0x00221823, 0x00221827, 0x0022182B, 0x70221842, 0x70221800, 0x24220001, 0x2C220001, 0x00221900,
      0x00021903] : List Word).all (fun w => decide (decode w = .systemcall w)) = true := by
  decide

/-- The rest of them. -/
theorem test_decode_catch_all_2 :
    ([0x3C228001, 0x78020001, 0x90220000, 0x94220000, 0x04300004, 0x03E10008, 0x03E00808, 0x03E0F809] : List Word).all (fun w => decide (decode w = .systemcall w)) = true := by
  decide

/-- E-SYS-1, E-SYS-2. -/
theorem test_decode_syscall_words :
    ([0x0000000C, 0xFFFFFFFF, 0xFC000000, 0x42000018, 0x0000000D, 0x0000000F, 0x00000001, 0x00000003] : List Word).all (fun w => decide (decode w = .systemcall w)) = true := by
  decide

/-- F-1: the fields of 0x8D2DFFFC. -/
theorem test_fields :
    let w : Word := 0x8D2DFFFC
    fieldOp w = 0x23 ∧ fieldOp11 w = 0x469 ∧ fieldS w = 9 ∧ fieldT w = 13 ∧ fieldD w = 31 ∧ fieldI16 w = 0xFFFC ∧
    fieldI5 w = 31 ∧ fieldX w = 0x12DFFFC ∧ fieldEnd21 w = 0x0DFFFC ∧ fieldEnd6 w = 0x3C ∧ fieldLen11 w = 0x7FC := by
  decide

/-- The host's numbering of a table row, and the same word encoded. -/
theorem test_table_word :
    decodeTableWord 32 0x00221820 = some (.add 3 1 2) ∧ encode (.add 3 1 2) = 0x00221820 ∧
    decodeTableWord 32 0x00000000 = some (.sll 0 0 0) := by decide

/-- A list of three bytes is refused by name, four give the instruction and the rest. -/
theorem test_decode_bytes :
    decodeBytes [0x20, 0x18, 0x22] = .error .tooFewBytes ∧
    decodeBytes [0x20, 0x18, 0x22, 0x00, 0x55] = .ok (.add 3 1 2, [0x55]) := by decide

/-! ### Arithmetic, logic, shifts -/

/-- X-ADD-2. -/
theorem test_add_wraps : gives 0x00221820 (cpu [(1, 0x7FFFFFFF), (2, 1)]) 3 0x80000000 = true := by decide

/-- X-ADD-3. -/
theorem test_add_destination_is_source : gives 0x00210820 (cpu [(1, 0x40000000)]) 1 0x80000000 = true := by decide

/-- X-ADDU-1. -/
theorem test_addu_wraps : gives 0x00221821 (cpu [(1, 0xFFFFFFFF), (2, 2)]) 3 1 = true := by decide

/-- X-SUB-1. -/
theorem test_sub : gives 0x00221822 (cpu [(1, 5), (2, 7)]) 3 0xFFFFFFFE = true := by decide

/-- X-MUL-3. -/
theorem test_mul : gives 0x70221802 (cpu [(1, 0x12345678), (2, 0x9ABCDEF0)]) 3 0x242D2080 = true := by decide

/-- X-SLT-1. -/
theorem test_slt_is_signed : gives 0x0022182A (cpu [(1, 0xFFFFFFFF)]) 3 1 = true := by decide

/-- X-SLT-3. -/
theorem test_slt_equal : gives 0x0022182A (cpu [(1, 5), (2, 5)]) 3 0 = true := by decide

/-- X-AND-1. -/
theorem test_and : gives 0x00221824 (cpu [(1, 0xFF00FF00), (2, 0x0FF00FF0)]) 3 0x0F000F00 = true := by decide

/-- X-OR-1. -/
theorem test_or : gives 0x00221825 (cpu [(1, 0xFF00FF00), (2, 0x0FF00FF0)]) 3 0xFFF0FFF0 = true := by decide

/-- X-XOR-1. -/
theorem test_xor : gives 0x00221826 (cpu [(1, 0xFF00FF00), (2, 0x0FF00FF0)]) 3 0xF0F0F0F0 = true := by decide

/-- X-SLL-1. -/
theorem test_sll : gives 0x00021900 (cpu [(2, 0xF000000F)]) 3 0x000000F0 = true := by decide

/-- X-SRL-1. -/
theorem test_srl_fills_zeros : gives 0x00021902 (cpu [(2, 0xF000000F)]) 3 0x0F000000 = true := by decide

/-- X-SLLV-1. -/
theorem test_sllv_amount_mod_32 : gives 0x00221804 (cpu [(1, 36), (2, 0x80000001)]) 3 0x10 = true := by decide

/-- X-SRLV-1. -/
theorem test_srlv : gives 0x00221806 (cpu [(1, 0xFFFFFFFF), (2, 0x80000000)]) 3 1 = true := by decide

/-! ### Immediates -/

/-- X-ADDI-1. -/
theorem test_addi_sign_extends : gives 0x2022FFFF (cpu []) 2 0xFFFFFFFF = true := by decide

/-- X-R0-1, with the hardwired register 0. -/
theorem test_addi_to_register_zero : gives 0x20200001 (cpu [(1, 5)]) 0 0 = true := by decide

/-- X-R0-1 with `R0_HARDWIRED = false`. -/
theorem test_register_zero_not_hardwired :
    regRead false (regWrite false (Vector.replicate 32 0) 0 6) 0 = 6 := by decide

/-- X-ANDI-2, X-ORI-2, X-XORI-2 at both values of their parameter. -/
theorem test_logical_immediates_at_both_widenings :
    0xFFFF00FF &&& ext32 .zext (0x8001 : Half) = 0x00000001 ∧ 0xFFFF00FF &&& ext32 .sext (0x8001 : Half) = 0xFFFF0001 ∧
    0x00010100 ||| ext32 .zext (0x8001 : Half) = 0x00018101 ∧ 0x00010100 ||| ext32 .sext (0x8001 : Half) = 0xFFFF8101 ∧
    0xFFFF0001 ^^^ ext32 .zext (0x8001 : Half) = 0xFFFF8000 ∧ 0xFFFF0001 ^^^ ext32 .sext (0x8001 : Half) = 0x00008000 := by
  decide

/-- X-ANDI-1, X-ORI-1, X-XORI-1: bit 15 clear, the same for both values of the open parameter. -/
theorem test_logical_immediates :
    ∀ m : ExtMode, 0x12345678 &&& ext32 m (0x0FF0 : Half) = 0x00000670 ∧
      0x12345678 ||| ext32 m (0x0FF0 : Half) = 0x12345FF8 ∧ 0x12345678 ^^^ ext32 m (0x0FF0 : Half) = 0x12345988 := by
  intro m
  cases m <;> decide

/-- X-ANDI-1, whatever `EXT_ANDI` is. -/
theorem test_andi : exec (decode 0x30220FF0) (cpu [(1, 0x12345678)]) = .next ((cpu [(1, 0x12345678)]).setReg 2 0x670).advance := by
  show exec (.andi 2 1 0x0FF0) _ = _
  rw [exec, execAndi, ext32_of_msb_false _ _ (by decide)]
  exact eq_next (by decide)

/-- X-ORI-1, whatever `EXT_ORI` is. -/
theorem test_ori :
    exec (decode 0x34220FF0) (cpu [(1, 0x12345678)]) = .next ((cpu [(1, 0x12345678)]).setReg 2 0x12345FF8).advance := by
  show exec (.ori 2 1 0x0FF0) _ = _
  rw [exec, execOri, ext32_of_msb_false _ _ (by decide)]
  exact eq_next (by decide)

/-- X-XORI-1, whatever `EXT_XORI` is. -/
theorem test_xori :
    exec (decode 0x38220FF0) (cpu [(1, 0x12345678)]) = .next ((cpu [(1, 0x12345678)]).setReg 2 0x12345988).advance := by
  show exec (.xori 2 1 0x0FF0) _ = _
  rw [exec, execXori, ext32_of_msb_false _ _ (by decide)]
  exact eq_next (by decide)

/-- X-SLTI-2. -/
theorem test_slti_immediate_is_signed : gives 0x2822FFFF (cpu []) 2 0 = true := by decide

/-- X-SLTI-1. -/
theorem test_slti : gives 0x2822FFFF (cpu [(1, 0xFFFFFFFE)]) 2 1 = true := by decide

/-- X-LUI-1. -/
theorem test_lui : gives 0x3C028001 (cpu [(2, 0x1234)]) 2 0x80010000 = true := by decide

/-! ### Loads and stores -/

/-- The four bytes of 95_test_vectors.md 2.7. -/
def data : List (Word × Byte) := [(0x2000, 0x80), (0x2001, 0xFF), (0x2002, 0x7F), (0x2003, 0x01)]

/-- X-LB-1. -/
theorem test_lb_sign_extends : gives 0x80220000 (cpuMem [(1, 0x2000)] data) 2 0xFFFFFF80 = true := by decide

/-- X-LH-1. -/
theorem test_lh_sign_extends : gives 0x84220000 (cpuMem [(1, 0x2000)] data) 2 0xFFFFFF80 = true := by decide

/-- X-LH-2. -/
theorem test_lh_odd_address : gives 0x84220001 (cpuMem [(1, 0x2000)] data) 2 0x00007FFF = true := by decide

/-- X-LW-2. -/
theorem test_lw_negative_offset : gives 0x8C22FFFC (cpuMem [(1, 0x2004)] data) 2 0x017FFF80 = true := by decide

/-- X-LW-3. -/
theorem test_lw_wraps :
    gives 0x8C22FFFF (cpuMem [(1, 0)] [(0xFFFFFFFF, 0x11), (0, 0x22), (1, 0x33), (2, 0x44)]) 2 0x44332211 = true := by
  decide

/-- X-SB-1. -/
theorem test_sb :
    onNext (exec (decode 0xA0220000) (cpuMem [(1, 0x2000), (2, 0x123456FF)] data)) (fun t =>
      bytes t 0x2000 4 == [0xFF, 0xFF, 0x7F, 0x01]) = true := by decide

/-- X-SH-1. -/
theorem test_sh_odd_address :
    onNext (exec (decode 0xA4220001) (cpuMem [(1, 0x2000), (2, 0x1234ABCD)] data)) (fun t =>
      bytes t 0x2000 4 == [0x80, 0xCD, 0xAB, 0x01]) = true := by decide

/-- X-SW-2. -/
theorem test_sw_wraps :
    onNext (exec (decode 0xAC22FFFE) (cpu [(2, 0xAABBCCDD)])) (fun t =>
      bytes t 0xFFFFFFFE 4 == [0xDD, 0xCC, 0xBB, 0xAA]) = true := by decide

/-- Storing the byte an unlisted address reads as takes the entry away (log entry 3). -/
theorem test_store_of_zero_is_canonical : Memory.write [(5, 7)] 5 0 = [] ∧ Memory.write [] 5 0 = [] := by decide

/-! ### Branches and jumps -/

/-- X-BEQ-3. -/
theorem test_beq_backward : goesTo 0x1022FFFD (cpu [(1, 5), (2, 5)]) 0x0FF4 = true := by decide

/-- X-BEQ-6 and X-BEQ-7. -/
theorem test_beq_displacement_wraps :
    goesTo 0x10008000 { State.reset with pc := 0x00010000 } 0xFFFF0000 = true ∧
    goesTo 0x10007FFF { State.reset with pc := 0xFFFFFFF0 } 0x0001FFEC = true := by decide

/-- X-BNE-1 and X-BNE-2. -/
theorem test_bne : goesTo 0x14220010 (cpu [(1, 1)]) 0x1040 = true ∧ goesTo 0x14220010 (cpu []) 0x1004 = true := by decide

/-- X-BLEZ-1 to X-BLEZ-3. -/
theorem test_blez :
    goesTo 0x18200004 (cpu []) 0x1010 = true ∧ goesTo 0x18200004 (cpu [(1, 0x80000000)]) 0x1010 = true ∧
    goesTo 0x18200004 (cpu [(1, 1)]) 0x1004 = true := by decide

/-- X-BGTZ-1 and X-BGTZ-2. -/
theorem test_bgtz :
    goesTo 0x1C200004 (cpu [(1, 1)]) 0x1010 = true ∧ goesTo 0x1C200004 (cpu []) 0x1004 = true ∧
    goesTo 0x1C200004 (cpu [(1, 0xFFFFFFFF)]) 0x1004 = true := by decide

/-- X-BLTZ-1 and X-BLTZ-2. -/
theorem test_bltz :
    goesTo 0x04200004 (cpu [(1, 0xFFFFFFFF)]) 0x1010 = true ∧ goesTo 0x04200004 (cpu []) 0x1004 = true := by decide

/-- X-BGEZ-1 and X-BGEZ-2. -/
theorem test_bgez :
    goesTo 0x04210004 (cpu []) 0x1010 = true ∧ goesTo 0x04210004 (cpu [(1, 0x80000000)]) 0x1004 = true := by decide

/-- X-J-2 and X-J-3. -/
theorem test_j :
    goesTo 0x0BFFFFFF { State.reset with pc := 0x10001000 } 0x1FFFFFFC = true ∧
    goesTo 0x08000000 { State.reset with pc := 0x00001002 } 0 = true := by decide

/-- X-JAL-1 and X-JAL-2. -/
theorem test_jal :
    onNext (exec (decode 0x0C100008) { State.reset with pc := 0x00400000 })
      (fun t => t.pc == 0x00400020 && t.reg 31 == 0x00400004) = true ∧
    onNext (exec (decode 0x0C000000) { State.reset with pc := 0xFFFFFFFC })
      (fun t => t.pc == 0xF0000000 && t.reg 31 == 0) = true := by decide

/-- X-JR-2. -/
theorem test_jr_unaligned : goesTo 0x00A00008 (cpu [(5, 0x12345677)]) 0x12345677 = true := by decide

/-- X-PC-1 and X-PC-2. -/
theorem test_pc_advance :
    goesTo 0x00000000 { State.reset with pc := 0xFFFFFFFC } 0 = true ∧
    goesTo 0x00000000 { State.reset with pc := 0x00001002 } 0x00001006 = true := by decide

/-! ### SYSTEMCALL -/

/-- S-1, S-3, S-4. -/
theorem test_print_integer :
    onNext (exec (decode 0x0000000C) (cpu [(2, 1), (4, 42)])) (fun t => t.conOut == [0x34, 0x32] && t.pc == 0x1004) = true ∧
    onNext (exec (decode 0x0000000C) (cpu [(2, 1), (4, 0x80000000)]))
      (fun t => t.conOut == [0x2D, 0x32, 0x31, 0x34, 0x37, 0x34, 0x38, 0x33, 0x36, 0x34, 0x38]) = true ∧
    onNext (exec (decode 0x0000000C) (cpu [(2, 1)])) (fun t => t.conOut == [0x30]) = true := by decide

/-- S-2 under the unsigned reading. -/
theorem test_print_integer_unsigned :
    decimal (printedInt false 0xFFFFFFFF) = [0x34, 0x32, 0x39, 0x34, 0x39, 0x36, 0x37, 0x32, 0x39, 0x35] := by decide

/-- S-5, S-6. -/
theorem test_print_string :
    onNext (exec (decode 0xFFFFFFFF) (cpuMem [(2, 4), (4, 0x3000)] [(0x3000, 0x48), (0x3001, 0x69), (0x3002, 0x0A)]))
      (fun t => t.conOut == [0x48, 0x69, 0x0A]) = true ∧
    onNext (exec (decode 0xFFFFFFFF) (cpu [(2, 4), (4, 0x3000)])) (fun t => t.conOut == [] && t.pc == 0x1004) = true := by
  decide

/-- S-7. -/
theorem test_print_string_wraps :
    onNext (exec (decode 0x0000000C) (cpuMem [(2, 4), (4, 0xFFFFFFFF)] [(0xFFFFFFFF, 0x41), (0, 0x42)]))
      (fun t => t.conOut == [0x41, 0x42]) = true := by decide

/-- S-8, S-11, S-13. -/
theorem test_read_integer :
    onNext (exec (decode 0x0000000C) (cpuIn [(2, 5)] [0x31, 0x32, 0x33, 0x0A]))
      (fun t => t.reg 2 == 0x7B && t.conIn == [0x0A]) = true ∧
    onNext (exec (decode 0x0000000C) (cpuIn [(2, 5)] [0x2D, 0x35, 0x20]))
      (fun t => t.reg 2 == 0xFFFFFFFB && t.conIn == [0x20]) = true ∧
    onNext (exec (decode 0x0000000C) (cpuIn [(2, 5)] [0x2B, 0x37, 0x0A]))
      (fun t => t.reg 2 == 7 && t.conIn == [0x0A]) = true := by decide

/-- S-10, S-12: the first clamped value, and the least representable one. -/
theorem test_read_integer_at_the_ends :
    onNext (exec (decode 0x0000000C) (cpuIn [(2, 5)] [0x32, 0x31, 0x34, 0x37, 0x34, 0x38, 0x33, 0x36, 0x34, 0x38]))
      (fun t => t.reg 2 == 0x7FFFFFFF) = true ∧
    onNext (exec (decode 0x0000000C)
        (cpuIn [(2, 5)] [0x20, 0x20, 0x2D, 0x32, 0x31, 0x34, 0x37, 0x34, 0x38, 0x33, 0x36, 0x34, 0x38, 0x78]))
      (fun t => t.reg 2 == 0x80000000 && t.conIn == [0x78]) = true := by decide

/-- S-14, S-15: below the range, and no number at all: some value, and the machine goes on. -/
theorem test_read_integer_free_value :
    onNext (exec (decode 0x0000000C) (cpuIn [(2, 5)] [0x2D, 0x32, 0x31, 0x34, 0x37, 0x34, 0x38, 0x33, 0x36, 0x34, 0x39]))
      (fun t => t.conIn == [] && t.pc == 0x1004 && t.freeIndex == 1) = true ∧
    onNext (exec (decode 0x0000000C) (cpuIn [(2, 5)] [0x61, 0x62, 0x63]))
      (fun t => t.pc == 0x1004 && t.freeIndex == 1) = true := by decide

/-- S-16, S-19. -/
theorem test_read_string :
    onNext (exec (decode 0x0000000C) (cpuIn [(2, 8), (4, 0x3000), (5, 8)] [0x61, 0x62, 0x63, 0x0A, 0x78, 0x79, 0x7A]))
      (fun t => bytes t 0x3000 8 == [0x61, 0x62, 0x63, 0, 0, 0, 0, 0] && t.conIn == [0x78, 0x79, 0x7A]) = true ∧
    onNext (exec (decode 0x0000000C)
        ((cpuMem [(2, 8), (4, 0x3000), (5, 4)] [(0x3003, 9), (0x3004, 9)]).setConIn [0x61, 0x62]))
      (fun t => bytes t 0x3000 5 == [0x61, 0x62, 0, 0, 9] && t.conIn == []) = true := by decide

/-- S-17, S-18, S-20: the buffer fills before the newline. -/
theorem test_read_string_full :
    onNext (exec (decode 0x0000000C) (cpuIn [(2, 8), (4, 0x3000), (5, 3)] [0x61, 0x62, 0x63, 0x0A]))
      (fun t => bytes t 0x3000 3 == [0x61, 0x62, 0] && t.conIn == [0x63, 0x0A]) = true ∧
    onNext (exec (decode 0x0000000C) ((cpuMem [(2, 8), (4, 0x3000), (5, 1)] [(0x3000, 9)]).setConIn [0x61, 0x0A]))
      (fun t => bytes t 0x3000 1 == [0] && t.conIn == [0x61, 0x0A]) = true ∧
    onNext (exec (decode 0x0000000C) (cpuIn [(2, 8), (4, 0xFFFFFFFE), (5, 4)] [0x78, 0x79, 0x7A, 0x0A]))
      (fun t => bytes t 0xFFFFFFFE 4 == [0x78, 0x79, 0x7A, 0] && t.conIn == [0x0A]) = true := by decide

/-- R185 with `READSTR_NEWLINE = store`: the newline is in the buffer. -/
theorem test_read_string_newline_stored :
    (readBuffer memValid .store 0x3000 4 (cpuIn [] [0x61, 0x0A, 0x62])).toOption.map (fun t => (bytes t 0x3000 4, t.conIn)) =
      some ([0x61, 0x0A, 0, 0], [0x62]) := by decide

/-- S-21. -/
theorem test_read_string_length_zero :
    isRefused (exec (decode 0x0000000C) (cpu [(2, 8)])) .readStringLengthZero = true := by decide

/-- S-22. -/
theorem test_terminate :
    exec (decode 0x0000000C) (cpu [(2, 10)]) = .next { cpu [(2, 10)] with halted := true } :=
  eq_next (by decide)

/-- S-23, S-24. -/
theorem test_print_character :
    onNext (exec (decode 0x0000000C) (cpu [(2, 11), (4, 0x141)])) (fun t => t.conOut == [0x41]) = true ∧
    onNext (exec (decode 0x0000000C) (cpu [(2, 11), (4, 0xFFFFFF00)])) (fun t => t.conOut == [0]) = true := by decide

/-- S-26, S-27, S-28. -/
theorem test_read_character :
    onNext (exec (decode 0x0000000C) (cpuIn [(2, 12)] [0x0A])) (fun t => t.reg 2 == 0x0A && t.conIn == []) = true ∧
    onNext (exec (decode 0x0000000C) (cpuIn [(2, 12)] [0xE9, 0x41])) (fun t => t.reg 2 == 0xE9 && t.conIn == [0x41]) = true ∧
    onNext (exec (decode 0x0000000C) (cpu [(2, 12)])) (fun t => t.pc == 0x1004 && t.freeIndex == 1) = true := by decide

/-- S-29. -/
theorem test_other_selectors :
    ([0, 2, 3, 6, 7, 9, 13, 0x0000010A, 0xFFFFFFFF] : List Word).all (fun n =>
      onNext (exec (decode 0x0000000C) (cpu [(2, n)])) (fun t => decide (t = (cpu [(2, n)]).advance))) = true := by decide

/-! ### The step -/

/-- The word placed at the reset `pc` runs as the first instruction. -/
theorem test_step_runs_placed_word :
    onNext (step (State.reset.withFetchWord 32 0x20220005)) (fun t => t.reg 2 == 5 && t.pc == 4) = true := by decide

/-- After the halt. -/
theorem test_step_after_halt : isRefused (step { State.reset with halted := true }) .runEnded = true := by decide

/-! ### Cases that meet the hypotheses of the statements -/

/-- WordPatternsAreDisjoint, and DecodesAs of the ADD, ADDU, MUL, J and JR encodings. -/
theorem witness_patterns :
    (0x00221820 : Word) &&& 0xFC0007FF = 0x00000020 ∧ (0x00221821 : Word) &&& 0xFC0007FF = 0x00000021 ∧
    (0x70221802 : Word) &&& 0xFC0007FF = 0x70000002 ∧ (0x0BFFFFFF : Word) &&& 0xFC000000 = 0x08000000 ∧
    (0x03E00008 : Word) &&& 0xFC1FFFFF = 0x00000008 ∧
    ((0x03E10008 : Word) &&& 0xFC00003F = 0x00000008 ∧ (0x03E10008 : Word) &&& 0xFC1FFFFF ≠ 0x00000008) ∧
    ∃ r ∈ opcodeTable, (0x00221820 : Word) &&& r.mask = r.value := by decide

/-- ClassifierIsTheWordConditions: a word of a row, and a word of none. -/
theorem witness_classifier :
    (∃ r ∈ opcodeTable, (0x10220002 : Word) &&& r.mask = r.value) ∧
    ∀ r ∈ opcodeTable, (0x0000000C : Word) &&& r.mask ≠ r.value := by decide

/-- DecodeOfEncodeIsTheInstruction, at the ends of the operands' ranges. -/
theorem witness_wf :
    (Instr.sll 31 31 31).wf = true ∧ (Instr.systemcall 0xFFFFFFFF).wf = true ∧ (Instr.blez 31 31 0x8000).wf = true := by decide

/-- StepRunsTheDecodedWord, StepAfterTheHaltIsRefused. -/
theorem witness_halted : State.reset.halted = false ∧ ({ State.reset with halted := true } : State).halted = true := by decide

/-- StepRunsThePlacedWord, StoreResults, StoreThenLoadGivesTheValueBack, CanonicalMemoriesAreDeterminedByTheirBytes: a
memory in canonical form with bytes listed at both ends of the address space. -/
theorem witness_memory :
    (cpuMem [] [(0xFFFFFFFF, 0x41), (0, 0x42)]).mem.wf = true ∧
    (cpuMem [] [(0xFFFFFFFF, 0x41), (0, 0x42)]).mem = [(0, 0x42), (0xFFFFFFFF, 0x41)] := by decide

/-- CanonicalMemoriesAreDeterminedByTheirBytes: the same bytes stored in another order. -/
theorem witness_equal_memories :
    (loadImage [(1, 2), (3, 4)]).wf = true ∧ (loadImage [(3, 4), (1, 9), (1, 2)]).wf = true ∧
    ∀ a : Word, (loadImage [(1, 2), (3, 4)]).read a.toNat = (loadImage [(3, 4), (1, 9), (1, 2)]).read a.toNat :=
  ⟨by decide, by decide, fun _ => rfl⟩

/-- InvalidAddressFaultsWithLowerBytesWritten: the third byte of four, and the first. -/
theorem witness_invalid_address :
    (let valid : Word → Bool := fun a => a != 0x2002
     (∀ j < 2, valid (0x2000 + BitVec.ofNat 32 j) = true) ∧ valid (0x2000 + BitVec.ofNat 32 2) = false ∧
     2 < ([1, 2, 3, 4] : List Byte).length) ∧
    (let valid : Word → Bool := fun _ => false
     (∀ j < 0, valid (0x2000 + BitVec.ofNat 32 j) = true) ∧ valid (0x2000 + BitVec.ofNat 32 0) = false) := by decide

/-- RegisterZeroReadsZero, NextPcIsTheSpecsTable, ProgramCounterAlignment, ConsoleStreamsOnlyGrowAndShrink: completing
activations of every alignment clause. -/
theorem witness_completed :
    exec (.addi 0 1 1) (cpu []) = .next (cpu []).advance ∧
    exec (.beq 0 0 0x8000) (cpu []) = .next { cpu [] with pc := 0xFFFE1000 } ∧
    exec (.j 1) (cpu []) = .next { cpu [] with pc := 4 } ∧
    (exec (.jal 1) (cpu []) = .next { (cpu []).setReg 31 0x1004 with pc := 4 }) ∧
    exec (.jr 5) (cpu [(5, 3)]) = .next { cpu [(5, 3)] with pc := 3 } :=
  ⟨eq_next (by decide), eq_next (by decide), eq_next (by decide), eq_next (by decide), eq_next (by decide)⟩

/-- LogicalImmediateResults: bit 15 clear, at the ends. -/
theorem witness_bit_15_clear : (0x7FFF : Half).getLsbD 15 = false ∧ (0 : Half).getLsbD 15 = false := by decide

/-- TerminationIsSelectorTenOnly, PrintInteger, ReadInteger: their selectors. -/
theorem witness_selectors :
    (cpu [(2, 10)]).reg regSel = 10 ∧ (cpu [(2, 1)]).reg regSel = 1 ∧ (cpu [(2, 5)]).reg regSel = 5 := by decide

/-- SelectorWithoutServiceOnlyAdvances: numbers beside the services' and one that agrees with 10 in its low byte. -/
theorem witness_no_service :
    (cpu []).reg regSel ∉ ([1, 4, 5, 8, 10, 11, 12] : List Word) ∧
    (cpu [(2, 9)]).reg regSel ∉ ([1, 4, 5, 8, 10, 11, 12] : List Word) ∧
    (cpu [(2, 13)]).reg regSel ∉ ([1, 4, 5, 8, 10, 11, 12] : List Word) ∧
    (cpu [(2, 0x0100000A)]).reg regSel ∉ ([1, 4, 5, 8, 10, 11, 12] : List Word) ∧
    (cpu [(2, 0xFFFFFFFF)]).reg regSel ∉ ([1, 4, 5, 8, 10, 11, 12] : List Word) := by decide

/-- PrintIntegerAppendsTheShortestNumeral: negative, zero and positive arguments. -/
theorem witness_print_integer :
    ((cpu [(2, 1), (4, 0x80000000)]).reg regSel = 1 ∧ ((cpu [(2, 1), (4, 0x80000000)]).reg regA0).toInt < 0) ∧
    ((cpu [(2, 1)]).reg regSel = 1 ∧ ((cpu [(2, 1)]).reg regA0).toInt = 0) ∧
    ((cpu [(2, 1), (4, 0x7FFFFFFF)]).reg regSel = 1 ∧ ¬ ((cpu [(2, 1), (4, 0x7FFFFFFF)]).reg regA0).toInt < 0) := by decide

/-- PrintStringAppendsTheBytesBeforeTheZero: a string over the end of the address space, and the empty one. -/
theorem witness_print_string :
    (let s := cpuMem [(2, 4), (4, 0xFFFFFFFF)] [(0xFFFFFFFF, 0x41), (0, 0x42)]
     s.reg regSel = 4 ∧ 2 < 2 ^ 32 ∧ (∀ j < 2, s.byte (s.reg regA0 + BitVec.ofNat 32 j) ≠ 0) ∧
     s.byte (s.reg regA0 + BitVec.ofNat 32 2) = 0) ∧
    (let s := cpu [(2, 4)]
     s.reg regSel = 4 ∧ 0 < 2 ^ 32 ∧ (∀ j < 0, s.byte (s.reg regA0 + BitVec.ofNat 32 j) ≠ 0) ∧
     s.byte (s.reg regA0 + BitVec.ofNat 32 0) = 0) := by decide

/-- A memory of `n` bytes 0x01 from `lo` on. -/
def filled : Nat → Nat → Memory
  | _, 0 => []
  | lo, n + 1 => (lo, 1) :: filled (lo + 1) n

theorem read_filled (n lo a : Nat) (h : lo ≤ a) (h' : a < lo + n) : (filled lo n).read a = 1 := by
  induction n generalizing lo with
  | zero => omega
  | succ n ih =>
    rw [filled, Memory.read]
    split
    · rfl
    · exact ih (lo + 1) (by omega) (by omega)

theorem wfFrom_filled (n lo : Nat) (h : lo + n ≤ addressCount) : Memory.wfFrom lo (filled lo n) = true := by
  induction n generalizing lo with
  | zero => rfl
  | succ n ih =>
    exact Memory.wfFrom_cons.2 ⟨Nat.le_refl _, by omega, by decide, ih (lo + 1) (by omega)⟩

/-- PrintStringIsStuckOnlyWithoutAZeroByte: a canonical memory with no zero byte, and one with a zero byte. -/
theorem witness_no_zero_byte :
    (∃ m : Memory, m.wf = true ∧ ((cpu [(2, 4)]).setMem m).reg regSel = 4 ∧
      ∀ a : Word, ((cpu [(2, 4)]).setMem m).byte a ≠ 0) ∧
    (cpu [(2, 4)]).reg regSel = 4 ∧ (cpu [(2, 4)]).byte 0 = 0 := by
  refine ⟨⟨filled 0 addressCount, wfFrom_filled _ 0 (by omega), by decide, fun a ha => ?_⟩, by decide, by decide⟩
  have h : (filled 0 addressCount).read a.toNat = 1 := read_filled _ _ _ (Nat.zero_le _) (by have := a.isLt; unfold addressCount; omega)
  rw [State.byte_setMem, h] at ha
  exact absurd ha (by decide)

/-- ReadIntegerClampsFromAbove: above the range, its two ends, below it, and a failed scan. -/
theorem witness_read_integer :
    (cpuIn [(2, 5)] []).reg regSel = 5 ∧
    scanInt [0x32, 0x31, 0x34, 0x37, 0x34, 0x38, 0x33, 0x36, 0x34, 0x38] = some (2147483648, []) ∧
    scanInt [0x32, 0x31, 0x34, 0x37, 0x34, 0x38, 0x33, 0x36, 0x34, 0x37] = some (2147483647, []) ∧
    scanInt [0x2D, 0x32, 0x31, 0x34, 0x37, 0x34, 0x38, 0x33, 0x36, 0x34, 0x38] = some (-2147483648, []) ∧
    scanInt [0x2D, 0x32, 0x31, 0x34, 0x37, 0x34, 0x38, 0x33, 0x36, 0x34, 0x39] = some (-2147483649, []) ∧
    scanInt [] = none ∧ scanInt [0x61] = none := by decide

/-- ScanIntFollowsItsGrammar: every white-space byte, each sign, digits 0 and 9, each kind of rest. -/
theorem witness_scan_int :
    (∀ b ∈ ([0x20, 0x09, 0x0D] : List Byte), b.toNat = 0x20 ∨ (0x09 ≤ b.toNat ∧ b.toNat ≤ 0x0D)) ∧
    (∀ b ∈ ([0x30, 0x39] : List Byte), 0x30 ≤ b.toNat ∧ b.toNat ≤ 0x39) ∧
    (∀ b, ([0x3A] : List Byte).head? = some b → ¬ (0x30 ≤ b.toNat ∧ b.toNat ≤ 0x39)) ∧
    (∀ b, ([0x2F] : List Byte).head? = some b → ¬ (0x30 ≤ b.toNat ∧ b.toNat ≤ 0x39) ∧ b.toNat ≠ 0x20 ∧
      ¬ (0x09 ≤ b.toNat ∧ b.toNat ≤ 0x0D) ∧ b ≠ 0x2B ∧ b ≠ 0x2D) ∧
    scanInt [0x20, 0x0D, 0x2D, 0x39, 0x30, 0x3A] = some (-90, [0x3A]) ∧ scanInt [0x2B, 0x2F] = none ∧
    scanInt [0x20, 0x2F] = none := by simp; decide

/-- ReadStringFillsTheBuffer: length 1, a line cut by the buffer, and a line cut by a newline. -/
theorem witness_read_string :
    (let s := cpuIn [(2, 8), (4, 0x3000), (5, 1)] [0x61]
     s.reg regSel = 8 ∧ s.mem.wf = true ∧ (s.reg regA1).toNat = 1 ∧ s.conIn.take 0 = []) ∧
    (let s := cpuIn [(2, 8), (4, 0x3000), (5, 3)] [0x61, 0x62, 0x63]
     s.reg regSel = 8 ∧ s.mem.wf = true ∧ (s.reg regA1).toNat = 3 ∧
     (s.conIn.take 2).takeWhile (fun c => c != 0x0A) = [0x61, 0x62]) ∧
    (let s := cpuIn [(2, 8), (4, 0x3000), (5, 3)] [0x61, 0x0A, 0x63]
     s.reg regSel = 8 ∧ s.mem.wf = true ∧ (s.reg regA1).toNat = 3 ∧
     (s.conIn.take 2).takeWhile (fun c => c != 0x0A) = [0x61]) := by decide

/-- ReadStringOfLengthZeroIsRefused. -/
theorem witness_read_string_length_zero : (cpu [(2, 8)]).reg regSel = 8 ∧ (cpu [(2, 8)]).reg regA1 = 0 := by decide

/-- CharacterServices: each of the three clauses. -/
theorem witness_characters :
    (cpu [(2, 11)]).reg regSel = 11 ∧
    ((cpuIn [(2, 12)] [0xFF]).reg regSel = 12 ∧ (cpuIn [(2, 12)] [0xFF]).conIn = 0xFF :: []) ∧
    ((cpu [(2, 12)]).reg regSel = 12 ∧ (cpu [(2, 12)]).conIn = []) := by decide

/-- RegisterReadAndWriteSets: two states that differ in registers outside the read set. -/
theorem witness_register_sets :
    let i : Instr := .add 3 1 2
    let s₁ := cpu [(1, 5), (2, 7), (9, 1)]
    let s₂ := cpu [(1, 5), (2, 7), (3, 4)]
    s₁.pc = s₂.pc ∧ s₁.mem = s₂.mem ∧ s₁.conIn = s₂.conIn ∧ s₁.conOut = s₂.conOut ∧ s₁.freeIndex = s₂.freeIndex ∧
    (∀ r ∈ regReads i s₁, s₁.reg r = s₂.reg r) ∧ exec i s₁ = .next (s₁.setReg 3 12).advance ∧ s₁ ≠ s₂ :=
  ⟨by decide, by decide, by decide, by decide, by decide, by decide, eq_next (by decide), by decide⟩

/-- The same for a SYSTEMCALL that reads three registers. -/
theorem witness_register_sets_systemcall :
    let i : Instr := .systemcall 0x0000000C
    let s₁ := cpu [(2, 8), (4, 0x3000), (5, 1), (9, 1)]
    let s₂ := cpu [(2, 8), (4, 0x3000), (5, 1)]
    (∀ r ∈ regReads i s₁, s₁.reg r = s₂.reg r) ∧ exec i s₁ = .next s₁.advance ∧ s₁ ≠ s₂ :=
  ⟨by decide, eq_next (by decide), by decide⟩

/-- MemoryAccessesAreTheListedOnes: a load, another memory that agrees on its one byte. -/
theorem witness_memory_accesses :
    let i : Instr := .lb 2 0 1
    let s := cpuMem [(1, 0x2000)] data
    let m := loadImage [(0x2000, 0x80)]
    exec i s = .next (s.setReg 2 0xFFFFFF80).advance ∧ s.mem.wf = true ∧ m.wf = true ∧ m ≠ s.mem ∧
    ∀ a, memReadsAt i s a → m.read a.toNat = s.byte a := by
  refine ⟨eq_next (by decide), by decide, by decide, by decide, ?_⟩
  intro a ha
  have h0 : (a - 0x2000 : Word).toNat < 1 := ha
  have h1 : a - 0x2000 = (0 : Word) := BitVec.eq_of_toNat_eq (by simpa using h0)
  have h2 : a = 0x2000 := by rw [← BitVec.sub_add_cancel a 0x2000, h1]; decide
  subst h2
  decide

/-- ConsoleStreamsOnlyGrowAndShrink: activations that change each stream. -/
theorem witness_console :
    exec (.systemcall 0x0000000C) (cpu [(2, 11), (4, 0x41)]) = .next ((cpu [(2, 11), (4, 0x41)]).emit [0x41]).advance ∧
    exec (.systemcall 0x0000000C) (cpuIn [(2, 12)] [0x41]) = .next ((cpu [(2, 12)]).setReg 2 0x41).advance :=
  ⟨eq_next (by decide), eq_next (by decide)⟩

/-- EveryOtherActivationCompletes: the refusing clause (the stuck one is met by witness_no_zero_byte). -/
theorem witness_refusing :
    (Instr.systemcall 0x0000000C).tag = .systemcall ∧ (cpu [(2, 8)]).reg regSel = 8 ∧ (cpu [(2, 8)]).reg regA1 = 0 := by decide

/-- StepKeepsTheMachineInvariant: a step that stores, from a state with the invariant. -/
theorem witness_invariant :
    ((cpu [(2, 0x11223344)]).withFetchWord 32 0xAC020000).inv = true ∧
    onNext (step ((cpu [(2, 0x11223344)]).withFetchWord 32 0xAC020000)) (fun t => bytes t 0 4 == [0x44, 0x33, 0x22, 0x11]) = true := by
  decide

/-- A launch that stores twice to one address, stores to both ends of the address space, and stores 0x00. -/
def launchInputs : Launch :=
  ⟨0x1000, Vector.replicate 32 7, [(5, 1), (0, 3), (5, 2), (0xFFFFFFFF, 4), (6, 0)], [0x41]⟩

/-- LaunchStatesHoldTheLaunchInputs, an address stored to: the byte stored last, with stores before and after it. -/
theorem witness_launch_stored :
    launchInputs.memInit = [(5, 1), (0, 3)] ++ (5, 2) :: [(0xFFFFFFFF, 4), (6, 0)] ∧
    (([(0xFFFFFFFF, 4), (6, 0)] : List (Word × Byte)).all fun c => c.1 != 5) = true ∧
    bytes (State.launch launchInputs) 0xFFFFFFFF 2 = [4, 3] ∧ (State.launch launchInputs).byte 5 = 2 := by decide

/-- LaunchStatesHoldTheLaunchInputs, an address nothing is stored to. -/
theorem witness_launch_not_stored :
    (launchInputs.memInit.all fun c => c.1 != 7) = true ∧ (State.launch launchInputs).byte 7 = unlistedByte := by decide

/-- LaunchStatesHoldTheLaunchInputs, the registers. -/
theorem witness_launch_registers :
    (State.launch launchInputs).reg 0 = 0 ∧ (State.launch launchInputs).reg 31 = 7 := by decide

end Sys2Proof.Tests
end

section
/-! The family 10_state.md: the register port (R21), and the registers an activation reads and writes (R23). R23 compares
two runs, so its proof keeps a relation between them (`Lockstep`) that every state operation preserves. -/

namespace Sys2Proof.Machine

/-- Settles O11: register 0 by the two values of `R0_HARDWIRED`, the rest by the read-after-write law of the port. -/
theorem registerPortReadsWhatWasWritten : Obligations.RegisterPortReadsWhatWasWritten := by
  intro r d j v
  refine ⟨by simp [regRead], by simp [regWrite], ?_, ?_⟩
  · simpa using regRead_regWrite true r d j v
  · simpa using regRead_regWrite false r d j v

/-! ### Loads, as register writes -/

theorem exec_lb_eq_writeAndAdvance (rt rb : RegIdx) (off : Half) (s : State) :
    exec (.lb rt off rb) s = writeAndAdvance s rt (sext32 (s.byte (effAddr s rb off))) := rfl

theorem exec_lh_eq_writeAndAdvance (rt rb : RegIdx) (off : Half) (s : State) :
    exec (.lh rt off rb) s =
      writeAndAdvance s rt
        (sext32 (halfOfBytes (s.byte (effAddr s rb off)) (s.byte (effAddr s rb off + 1)))) := rfl

theorem exec_lw_eq_writeAndAdvance (rt rb : RegIdx) (off : Half) (s : State) :
    exec (.lw rt off rb) s =
      writeAndAdvance s rt
        (wordOfBytes (s.byte (effAddr s rb off)) (s.byte (effAddr s rb off + 1)) (s.byte (effAddr s rb off + 2))
          (s.byte (effAddr s rb off + 3))) := rfl

/-! ### Two states that differ in registers only -/

/-- The two states agree on everything an activation can see but the registers. -/
structure AgreeOffRegs (s₁ s₂ : State) : Prop where
  pc : s₁.pc = s₂.pc
  mem : s₁.mem = s₂.mem
  conIn : s₁.conIn = s₂.conIn
  conOut : s₁.conOut = s₂.conOut
  freeIndex : s₁.freeIndex = s₂.freeIndex

/-- From `s₁` and `s₂` two activations have come to `t₁` and `t₂`, having written the registers of `W` and no other, the
same values in both. -/
structure Lockstep (W : List RegIdx) (s₁ s₂ t₁ t₂ : State) : Prop extends AgreeOffRegs t₁ t₂ where
  written : ∀ r ∈ W, t₁.reg r = t₂.reg r
  kept : ∀ r, r ∉ W → t₁.reg r = s₁.reg r ∧ t₂.reg r = s₂.reg r

/-- When the first activation answers a next state, so does the second, in lockstep with it and with the same halt. -/
def LockstepResults (W : List RegIdx) (s₁ s₂ : State) (o₁ o₂ : Result) : Prop :=
  ∀ t₁, o₁ = .next t₁ → ∃ t₂, o₂ = .next t₂ ∧ Lockstep W s₁ s₂ t₁ t₂ ∧ t₁.halted = t₂.halted

section
variable {W : List RegIdx} {s₁ s₂ t₁ t₂ : State}

theorem AgreeOffRegs.byte_eq (h : AgreeOffRegs s₁ s₂) (a : Word) : s₁.byte a = s₂.byte a :=
  congrArg (Memory.read · a.toNat) h.mem

theorem AgreeOffRegs.lockstep (h : AgreeOffRegs s₁ s₂) : Lockstep [] s₁ s₂ s₁ s₂ where
  toAgreeOffRegs := h
  written := by simp
  kept _ _ := ⟨rfl, rfl⟩

/-! ### What keeps the lockstep -/

theorem Lockstep.setMem (h : Lockstep W s₁ s₂ t₁ t₂) (m : Memory) :
    Lockstep W s₁ s₂ (t₁.setMem m) (t₂.setMem m) :=
  ⟨⟨h.pc, rfl, h.conIn, h.conOut, h.freeIndex⟩, h.written, h.kept⟩

theorem Lockstep.setConIn (h : Lockstep W s₁ s₂ t₁ t₂) (bs : List Byte) :
    Lockstep W s₁ s₂ (t₁.setConIn bs) (t₂.setConIn bs) :=
  ⟨⟨h.pc, h.mem, rfl, h.conOut, h.freeIndex⟩, h.written, h.kept⟩

theorem Lockstep.emit (h : Lockstep W s₁ s₂ t₁ t₂) (bs : List Byte) :
    Lockstep W s₁ s₂ (t₁.emit bs) (t₂.emit bs) :=
  ⟨⟨h.pc, h.mem, h.conIn, congrArg (· ++ bs) h.conOut, h.freeIndex⟩, h.written, h.kept⟩

theorem Lockstep.nextFree (h : Lockstep W s₁ s₂ t₁ t₂) : Lockstep W s₁ s₂ t₁.nextFree t₂.nextFree :=
  ⟨⟨h.pc, h.mem, h.conIn, h.conOut, congrArg (· + 1) h.freeIndex⟩, h.written, h.kept⟩

/-- Register 0 counts as written when it is the destination, though a hardwired one keeps its zero. -/
theorem Lockstep.setReg (h : Lockstep [] s₁ s₂ t₁ t₂) (d : RegIdx) (v : Word) :
    Lockstep [d] s₁ s₂ (t₁.setReg d v) (t₂.setReg d v) where
  toAgreeOffRegs := ⟨h.pc, h.mem, h.conIn, h.conOut, h.freeIndex⟩
  written r hr := by
    obtain rfl := List.mem_singleton.1 hr
    simp
  kept r hr := by
    have hne : r ≠ d := by simpa using hr
    obtain ⟨k₁, k₂⟩ := h.kept r (by simp)
    have hzero : ∀ s : State, r0Hardwired = true ∧ r = 0 → s.reg r = 0 := fun s h0 => if_pos h0
    rw [State.reg_setReg, State.reg_setReg, if_neg hne, if_neg hne, k₁, k₂]
    split_ifs with h0
    · exact ⟨(hzero s₁ h0).symm, (hzero s₂ h0).symm⟩
    · exact ⟨rfl, rfl⟩

/-- The free values are functions of the counter (log entry 21), so both activations take the same one. -/
theorem Lockstep.setRegFree (h : Lockstep [] s₁ s₂ t₁ t₂) (d : RegIdx) :
    Lockstep [d] s₁ s₂ (t₁.setRegFree d) (t₂.setRegFree d) := by
  rw [State.setRegFree, State.setRegFree, ← h.freeIndex]
  exact (h.setReg d _).nextFree

/-! ### The ends of an activation -/

theorem Lockstep.complete (h : Lockstep W s₁ s₂ t₁ t₂) (p : Word) (halt : Bool) :
    LockstepResults W s₁ s₂ (.next (t₁.complete p halt)) (.next (t₂.complete p halt)) := by
  rintro _ ⟨rfl⟩
  exact ⟨_, rfl, ⟨⟨rfl, h.mem, h.conIn, h.conOut, h.freeIndex⟩, h.written, h.kept⟩, rfl⟩

theorem Lockstep.advance (h : Lockstep W s₁ s₂ t₁ t₂) :
    LockstepResults W s₁ s₂ (.next t₁.advance) (.next t₂.advance) := by
  rw [State.advance, State.advance, ← h.pc]
  exact h.complete _ _

theorem lockstepResults_fault (f : Fault) (o : Result) : LockstepResults W s₁ s₂ (.fault f) o := nofun

theorem lockstepResults_refused (r : Refusal) (o : Result) : LockstepResults W s₁ s₂ (.refused r) o := nofun

theorem AgreeOffRegs.lockstep_writeAndAdvance (h : AgreeOffRegs s₁ s₂) {d : RegIdx} {v₁ v₂ : Word} (hv : v₁ = v₂) :
    LockstepResults [d] s₁ s₂ (writeAndAdvance s₁ d v₁) (writeAndAdvance s₂ d v₂) := by
  subst hv
  exact (h.lockstep.setReg d v₁).advance

theorem AgreeOffRegs.lockstep_branchIf (h : AgreeOffRegs s₁ s₂) {c₁ c₂ : Bool} (hc : c₁ = c₂) (imm : Half) :
    LockstepResults [] s₁ s₂ (branchIf s₁ c₁ imm) (branchIf s₂ c₂ imm) := by
  rw [branchIf, branchIf, ← hc, ← h.pc]
  exact h.lockstep.complete _ _

theorem AgreeOffRegs.lockstep_storeAndAdvance (h : AgreeOffRegs s₁ s₂) {a₁ a₂ v₁ v₂ : Word} (n : Nat) (ha : a₁ = a₂)
    (hv : v₁ = v₂) :
    LockstepResults [] s₁ s₂ (.next (s₁.setMem (s₁.mem.writeList a₁ (leBytes n v₁))).advance)
      (.next (s₂.setMem (s₂.mem.writeList a₂ (leBytes n v₂))).advance) := by
  rw [← ha, ← hv, ← h.mem]
  exact (h.lockstep.setMem _).advance

theorem effAddr_congr {rb : RegIdx} (hb : s₁.reg rb = s₂.reg rb) (off : Half) :
    effAddr s₁ rb off = effAddr s₂ rb off :=
  congrArg (· + sext32 off) hb

/-! ### The services of SYSTEMCALL -/

theorem AgreeOffRegs.lockstep_printInteger (h : AgreeOffRegs s₁ s₂) (h0 : s₁.reg regA0 = s₂.reg regA0) :
    LockstepResults [] s₁ s₂ (printInteger s₁) (printInteger s₂) := by
  rw [printInteger, printInteger, ← h0]
  exact (h.lockstep.emit _).advance

theorem AgreeOffRegs.lockstep_printCharacter (h : AgreeOffRegs s₁ s₂) (h0 : s₁.reg regA0 = s₂.reg regA0) :
    LockstepResults [] s₁ s₂ (printCharacter s₁) (printCharacter s₂) := by
  rw [printCharacter, printCharacter, ← h0]
  exact (h.lockstep.emit _).advance

theorem AgreeOffRegs.bytesFrom_eq (h : AgreeOffRegs s₁ s₂) (a : Word) (n : Nat) :
    bytesFrom s₁ a n = bytesFrom s₂ a n := by
  simp only [bytesFrom_eq_map, h.byte_eq]

theorem AgreeOffRegs.lockstep_printString (h : AgreeOffRegs s₁ s₂) (h0 : s₁.reg regA0 = s₂.reg regA0) :
    LockstepResults [] s₁ s₂ (printString s₁) (printString s₂) := by
  rcases printString_cases s₁ with ⟨n, hn, hne, hz, e₁⟩ | ⟨-, e₁⟩
  · have e₂ : printString s₂ = .next (s₂.emit (bytesFrom s₁ (s₁.reg regA0) n)).advance := by
      simp only [h.byte_eq, h0] at hne hz
      rw [printString, printFrom_of_zero s₂ _ n _ hn hne hz, h.bytesFrom_eq, h0, advanceAfter_ok]
    rw [e₁, e₂]
    exact (h.lockstep.emit _).advance
  · rw [e₁]
    exact lockstepResults_fault _ _

theorem AgreeOffRegs.lockstep_readInteger (h : AgreeOffRegs s₁ s₂) :
    LockstepResults [regRes] s₁ s₂ (readInteger s₁) (readInteger s₂) := by
  rw [readInteger, readInteger, ← h.conIn, ← h.freeIndex]
  rcases scanInt s₁.conIn with - | ⟨n, rest⟩
  · exact ((h.lockstep.setConIn _).setRegFree _).advance
  · dsimp only
    split_ifs
    · exact ((h.lockstep.setConIn _).setReg _ _).advance
    · exact ((h.lockstep.setConIn _).setRegFree _).advance
    · exact ((h.lockstep.setConIn _).setReg _ _).advance

theorem AgreeOffRegs.lockstep_readString (h : AgreeOffRegs s₁ s₂) (h0 : s₁.reg regA0 = s₂.reg regA0)
    (h1 : s₁.reg regA1 = s₂.reg regA1) :
    LockstepResults [] s₁ s₂ (readString s₁) (readString s₂) := by
  rw [readString_eq, readString_eq, ← h1]
  split_ifs
  · exact lockstepResults_refused _ _
  · rw [afterReadString, afterReadString, ← h0, ← h1, ← h.mem, ← h.conIn]
    exact ((h.lockstep.setMem _).setConIn _).advance

theorem AgreeOffRegs.lockstep_terminate (h : AgreeOffRegs s₁ s₂) :
    LockstepResults [] s₁ s₂ (terminate s₁) (terminate s₂) := by
  rw [terminate, terminate, ← h.pc]
  exact h.lockstep.complete _ _

theorem AgreeOffRegs.lockstep_readCharacter (h : AgreeOffRegs s₁ s₂) :
    LockstepResults [regRes] s₁ s₂ (readCharacter s₁) (readCharacter s₂) := by
  rw [readCharacter, readCharacter, ← h.conIn]
  rcases s₁.conIn with - | ⟨c, rest⟩
  · exact (h.lockstep.setRegFree _).advance
  · exact ((h.lockstep.setConIn _).setReg _ _).advance

/-- Both activations read the same selector, so both give the same service. -/
theorem AgreeOffRegs.lockstep_systemcall (h : AgreeOffRegs s₁ s₂) (w : Word)
    (hr : ∀ r ∈ regReads (.systemcall w) s₁, s₁.reg r = s₂.reg r) :
    LockstepResults (regWrites (.systemcall w) s₁) s₁ s₂ (exec (.systemcall w) s₁) (exec (.systemcall w) s₂) := by
  have hsel : s₁.reg regSel = s₂.reg regSel := hr _ (by simp only [regReads]; split_ifs <;> simp)
  obtain ⟨n, hn⟩ : ∃ n, s₁.reg regSel = n := ⟨_, rfl⟩
  rw [exec_systemcall_of_selector w s₁ n hn, exec_systemcall_of_selector w s₂ n (hsel.symm.trans hn)]
  simp only [regReads, hn] at hr
  simp only [regWrites, hn]
  by_cases h1 : n = 1
  · subst h1
    exact h.lockstep_printInteger (hr _ (by simp))
  by_cases h4 : n = 4
  · subst h4
    exact h.lockstep_printString (hr _ (by simp))
  by_cases h5 : n = 5
  · subst h5
    exact h.lockstep_readInteger
  by_cases h8 : n = 8
  · subst h8
    exact h.lockstep_readString (hr _ (by simp)) (hr _ (by simp))
  by_cases h10 : n = 10
  · subst h10
    exact h.lockstep_terminate
  by_cases h11 : n = 11
  · subst h11
    exact h.lockstep_printCharacter (hr _ (by simp))
  by_cases h12 : n = 12
  · subst h12
    exact h.lockstep_readCharacter
  · simpa only [h1, h4, h5, h8, h10, h11, h12, or_self, if_false] using h.lockstep.advance

/-- Two states that agree off the registers and on the read set of an instruction run it in lockstep. -/
theorem AgreeOffRegs.lockstep_exec (h : AgreeOffRegs s₁ s₂) (i : Instr) (hr : ∀ r ∈ regReads i s₁, s₁.reg r = s₂.reg r) :
    LockstepResults (regWrites i s₁) s₁ s₂ (exec i s₁) (exec i s₂) := by
  cases i
  case add rd a b | addu rd a b | sub rd a b | mul rd a b | and rd a b | or rd a b | xor rd a b | slt rd a b
      | sllv rd a b | srlv rd a b =>
    have ha : s₁.reg a = s₂.reg a := hr a (by simp [regReads])
    have hb : s₁.reg b = s₂.reg b := hr b (by simp [regReads])
    exact h.lockstep_writeAndAdvance (by rw [ha, hb])
  case addi rd a imm | andi rd a imm | ori rd a imm | xori rd a imm | slti rd a imm | sll rd a imm
      | srl rd a imm =>
    have ha : s₁.reg a = s₂.reg a := hr a (by simp [regReads])
    exact h.lockstep_writeAndAdvance (by rw [ha])
  case lui => exact h.lockstep_writeAndAdvance rfl
  case lb rt off rb | lh rt off rb | lw rt off rb =>
    have ha := effAddr_congr (hr rb (by simp [regReads])) off
    simp only [exec_lb_eq_writeAndAdvance, exec_lh_eq_writeAndAdvance, exec_lw_eq_writeAndAdvance]
    exact h.lockstep_writeAndAdvance (by simp only [ha, h.byte_eq])
  case sb rt off rb | sh rt off rb | sw rt off rb =>
    have ha := effAddr_congr (hr rb (by simp [regReads])) off
    simp only [exec_sb, exec_sh, exec_sw]
    exact h.lockstep_storeAndAdvance _ ha (hr rt (by simp [regReads]))
  case beq a b imm | bne a b imm =>
    have ha : s₁.reg a = s₂.reg a := hr a (by simp [regReads])
    have hb : s₁.reg b = s₂.reg b := hr b (by simp [regReads])
    exact h.lockstep_branchIf (by rw [ha, hb]) imm
  case blez a _ imm | bgtz a _ imm | bltz a imm | bgez a imm =>
    have ha : s₁.reg a = s₂.reg a := hr a (by simp [regReads])
    exact h.lockstep_branchIf (by rw [ha]) imm
  case j x =>
    simp only [exec, execJ, ← h.pc]
    exact h.lockstep.complete _ _
  case jal x =>
    simp only [exec, execJal, ← h.pc]
    exact (h.lockstep.setReg _ _).complete _ _
  case jr a =>
    simp only [exec, execJr, ← hr a (by simp [regReads])]
    exact h.lockstep.complete _ _
  case systemcall w => exact h.lockstep_systemcall w hr

end

/-- Settles O43: the two activations run in lockstep. -/
theorem registerReadAndWriteSets : Obligations.RegisterReadAndWriteSets := by
  intro i s₁ s₂ t₁ hpc hmem hin hout hfree hr he
  have h : AgreeOffRegs s₁ s₂ := ⟨hpc, hmem, hin, hout, hfree⟩
  obtain ⟨t₂, he₂, ht, hhalt⟩ := h.lockstep_exec i hr t₁ he
  exact ⟨t₂, he₂, ht.pc, ht.mem, ht.conIn, ht.conOut, hhalt, ht.freeIndex, ht.written, ht.kept⟩

end Sys2Proof.Machine
end

section
/-! The family 20_memory.md: the composed reads (R42), and the bytes an activation reads and writes (R56). Every
activation is one run of byte writes (the empty run, but for a store and selector 8) whose addresses and bytes depend on
no byte outside the listed reads; `AccessesListedBytes` says so, and R56 follows from it alone. -/

namespace Sys2Proof.Machine

/-- Settles O14: the two byte compositions, as numbers. -/
theorem memReadIsLittleEndian : Obligations.MemReadIsLittleEndian := fun s a =>
  ⟨memRead1_memValid s a, ⟨_, memRead2_memValid s a, halfOfBytes_toNat _ _⟩,
    ⟨_, memRead4_memValid s a, wordOfBytes_toNat _ _ _ _⟩⟩

/-! ### Addresses in a run -/

theorem inRun_add (a c : Word) (n : Nat) : inRun a n (a + c) ↔ c.toNat < n := by
  rw [inRun, add_sub_cancel_left]

theorem inRun_base (a : Word) {n : Nat} (hn : 0 < n) : inRun a n a := by simpa [inRun] using hn

/-! ### An activation as one run of byte writes -/

/-- The memory holds the bytes that the activation reads (R56). -/
def AgreesOnReads (i : Instr) (s : State) (m : Memory) : Prop :=
  ∀ x, memReadsAt i s x → m.read x.toNat = s.byte x

/-- The listed writes are the run of `bs` from `a` on, and with any memory that agrees on the listed reads the activation
leads to the state `t`, but for memory, in which it has stored `bs` from `a` on. -/
structure AccessesListedBytes (i : Instr) (s t : State) (a : Word) (bs : List Byte) : Prop where
  length_le : bs.length ≤ 2 ^ 32
  writes_iff : ∀ x, memWritesAt i s x ↔ inRun a bs.length x
  exec_setMem : ∀ m, AgreesOnReads i s m → exec i (s.setMem m) = .next (t.setMem (m.writeList a bs))

section
variable {i : Instr} {s t : State} {a : Word} {bs : List Byte}

/-- The activation's own memory agrees with itself. -/
theorem AccessesListedBytes.mem_eq (h : AccessesListedBytes i s t a bs) (he : exec i s = .next t) :
    t.mem = s.mem.writeList a bs := by
  have hself := h.exec_setMem s.mem fun _ _ => rfl
  rw [setMem_self, he] at hself
  injection hself with ht
  exact congrArg State.mem ht

theorem AccessesListedBytes.byte_of_not_written (h : AccessesListedBytes i s t a bs) (m : Memory) {x : Word}
    (hx : ¬ memWritesAt i s x) : (m.writeList a bs).read x.toNat = m.read x.toNat :=
  Memory.read_writeList_outside m a x bs (Nat.le_of_not_lt (mt (h.writes_iff x).2 hx))

/-- What a written byte becomes does not depend on the memory written to. -/
theorem AccessesListedBytes.byte_of_written (h : AccessesListedBytes i s t a bs) {m m' : Memory} (hm : m.wf = true)
    (hm' : m'.wf = true) {x : Word} (hx : memWritesAt i s x) :
    (m'.writeList a bs).read x.toNat = (m.writeList a bs).read x.toNat := by
  have hrun : (x - a).toNat < bs.length := (h.writes_iff x).1 hx
  rw [Memory.read_writeList_inside a x bs hm h.length_le hrun, Memory.read_writeList_inside a x bs hm' h.length_le hrun]

/-- An activation with no listed write: with a memory that agrees on the listed reads it leaves that memory as it is. -/
theorem accessesListedBytes_of_no_write (hw : ∀ x, ¬ memWritesAt i s x)
    (he : ∀ m, AgreesOnReads i s m → exec i (s.setMem m) = .next (t.setMem m)) : AccessesListedBytes i s t 0 [] where
  length_le := Nat.zero_le _
  writes_iff x := iff_of_false (hw x) (Nat.not_lt_zero _)
  exec_setMem := he

/-! ### Loads and stores -/

@[simp] theorem effAddr_setMem (s : State) (m : Memory) (rb : RegIdx) (off : Half) :
    effAddr (s.setMem m) rb off = effAddr s rb off := rfl

theorem AgreesOnReads.byte_setMem {m : Memory} (hm : AgreesOnReads i s m) {x : Word} (hx : memReadsAt i s x) :
    (s.setMem m).byte x = s.byte x := hm x hx

theorem accessesListedBytes_store {n : Nat} {v : Word} (hn : n ≤ 4) (hw : ∀ x, memWritesAt i s x ↔ inRun a n x)
    (he : ∀ m, exec i (s.setMem m) = .next ((s.setMem m).setMem (m.writeList a (leBytes n v))).advance) :
    AccessesListedBytes i s (s.setMem (s.mem.writeList a (leBytes n v))).advance a (leBytes n v) where
  length_le := by
    rw [length_leBytes]
    omega
  writes_iff := by simpa using hw
  exec_setMem m _ := he m

/-! ### The services of SYSTEMCALL -/

theorem readInteger_setMem (h : readInteger s = .next t) (m : Memory) :
    readInteger (s.setMem m) = .next (t.setMem m) := by
  simp only [readInteger, State.setMem_conIn, State.setMem_freeIndex] at h ⊢
  cases hscan : scanInt s.conIn with
  | none =>
    simp only [hscan] at h ⊢
    cases h
    rfl
  | some r =>
    simp only [hscan] at h ⊢
    split_ifs at h ⊢ <;> cases h <;> rfl

theorem readCharacter_setMem (h : readCharacter s = .next t) (m : Memory) :
    readCharacter (s.setMem m) = .next (t.setMem m) := by
  simp only [readCharacter, State.setMem_conIn] at h ⊢
  cases hin : s.conIn with
  | nil =>
    simp only [hin] at h ⊢
    cases h
    rfl
  | cons c rest =>
    simp only [hin] at h ⊢
    cases h
    rfl

/-- Every service but selectors 4 and 8 does the same with any memory, and leaves it alone. -/
theorem exec_systemcall_setMem {w : Word} (h4 : s.reg regSel ≠ 4) (h8 : s.reg regSel ≠ 8)
    (h : exec (.systemcall w) s = .next t) (m : Memory) : exec (.systemcall w) (s.setMem m) = .next (t.setMem m) := by
  rw [exec_systemcall_of_selector w s _ rfl, if_neg h4, if_neg h8] at h
  rw [exec_systemcall_of_selector w (s.setMem m) _ rfl, State.reg_setMem, if_neg h4, if_neg h8]
  split_ifs at h ⊢
  · cases h; rfl
  · exact readInteger_setMem h m
  · cases h; rfl
  · cases h; rfl
  · exact readCharacter_setMem h m
  · cases h; rfl

/-- Selector 4 meets the same string in any memory that agrees with its own up to the first zero byte. -/
theorem printString_setMem {w : Word} (h4 : s.reg regSel = 4) (h : printString s = .next t) {m : Memory}
    (hm : AgreesOnReads (.systemcall w) s m) : printString (s.setMem m) = .next (t.setMem m) := by
  rcases printString_cases s with ⟨n, hn, hne, hz, e⟩ | ⟨-, e⟩
  · have hbyte : ∀ j ≤ n, (s.setMem m).byte (s.reg regA0 + BitVec.ofNat 32 j) =
        s.byte (s.reg regA0 + BitVec.ofNat 32 j) := fun j hj =>
      hm _ ⟨h4, fun k hk => hne k (by
        rw [add_sub_cancel_left, BitVec.toNat_ofNat] at hk
        exact (hk.trans_le (Nat.mod_le _ _)).trans_le hj)⟩
    have hstring : bytesFrom (s.setMem m) (s.reg regA0) n = bytesFrom s (s.reg regA0) n := by
      rw [bytesFrom_eq_map, bytesFrom_eq_map]
      exact List.map_congr_left fun j hj => hbyte j (List.mem_range.1 hj).le
    cases e.symm.trans h
    rw [printString, State.reg_setMem,
      printFrom_of_zero _ _ n _ hn (fun j hj => (hbyte j hj.le).symm ▸ hne j hj) ((hbyte n le_rfl).trans hz), hstring]
    rfl
  · cases e.symm.trans h

/-- The bytes of selector 8's buffer: the line, then zeros (R185). -/
def lineBuffer (input : List Byte) (len : Nat) : List Byte :=
  lineOf input (len - 1) ++ List.replicate (len - (lineOf input (len - 1)).length) 0

@[simp] theorem length_lineBuffer (input : List Byte) (len : Nat) : (lineBuffer input len).length = len := by
  have := length_lineOf_le input (len - 1)
  simp only [lineBuffer, List.length_append, List.length_replicate]
  omega

theorem afterReadString_setMem (s : State) (m : Memory) :
    afterReadString (s.setMem m) =
      (afterReadString s).setMem (m.writeList (s.reg regA0) (lineBuffer s.conIn (s.reg regA1).toNat)) := rfl

theorem accessesListedBytes_readString {w : Word} (h8 : s.reg regSel = 8) (h1 : s.reg regA1 ≠ 0) :
    AccessesListedBytes (.systemcall w) s (afterReadString s) (s.reg regA0)
      (lineBuffer s.conIn (s.reg regA1).toNat) where
  length_le := (length_lineBuffer _ _).trans_le (s.reg regA1).isLt.le
  writes_iff x := by
    rw [length_lineBuffer]
    exact and_iff_right h8
  exec_setMem m _ := by
    rw [exec_systemcall_of_selector w (s.setMem m) 8 h8, ← afterReadString_setMem]
    exact (readString_eq _).trans (if_neg h1)

theorem exists_accessesListedBytes_systemcall {w : Word} (h : exec (.systemcall w) s = .next t) :
    ∃ a bs, AccessesListedBytes (.systemcall w) s t a bs := by
  by_cases h8 : s.reg regSel = 8
  · have hread : readString s = .next t := (exec_systemcall_of_selector w s 8 h8).symm.trans h
    rw [readString_eq] at hread
    split_ifs at hread with h1
    cases hread
    exact ⟨_, _, accessesListedBytes_readString h8 h1⟩
  have hw : ∀ x, ¬ memWritesAt (.systemcall w) s x := fun x hx => h8 hx.1
  by_cases h4 : s.reg regSel = 4
  · have hprint : printString s = .next t := (exec_systemcall_of_selector w s 4 h4).symm.trans h
    exact ⟨_, _, accessesListedBytes_of_no_write hw fun m hm =>
      (exec_systemcall_of_selector w (s.setMem m) 4 h4).trans (printString_setMem h4 hprint hm)⟩
  · exact ⟨_, _, accessesListedBytes_of_no_write hw fun m _ => exec_systemcall_setMem h4 h8 h m⟩

/-! ### Every instruction -/

/-- A load reads the run it lists, a store and selector 8 write theirs, and nothing else touches memory. -/
theorem exists_accessesListedBytes (h : exec i s = .next t) : ∃ a bs, AccessesListedBytes i s t a bs := by
  cases i
  case add | addu | sub | mul | and | or | xor | slt | sllv | srlv | sll | srl | addi | andi | ori | xori | slti
      | lui | j | jal | jr | beq | bne | blez | bgtz | bltz | bgez =>
    cases h
    exact ⟨0, [], accessesListedBytes_of_no_write (fun _ => not_false) fun _ _ => rfl⟩
  case lb rt off rb | lh rt off rb | lw rt off rb =>
    cases h
    refine ⟨0, [], accessesListedBytes_of_no_write (fun _ => not_false) fun m hm => ?_⟩
    -- each byte a load composes lies in its own run, so `m` holds the same one
    have hbyte {x : Word} := hm.byte_setMem (x := x)
    simp only [memReadsAt] at hbyte
    simp (disch := simp [inRun_add, inRun_base]) only [exec_lb_eq_writeAndAdvance, exec_lh_eq_writeAndAdvance,
      exec_lw_eq_writeAndAdvance, effAddr_setMem, hbyte]
    rfl
  case sb rt off rb | sh rt off rb | sw rt off rb =>
    simp only [exec_sb, exec_sh, exec_sw] at h
    cases h
    refine ⟨effAddr s rb off, _, accessesListedBytes_store ?_ (fun _ => Iff.rfl) fun m => ?_⟩
    · decide
    · simp
  case systemcall w => exact exists_accessesListedBytes_systemcall h

end

/-- Settles O44: the bytes of the run do not depend on memory, and the run is the listed writes. -/
theorem memoryAccessesAreTheListedOnes : Obligations.MemoryAccessesAreTheListedOnes := by
  intro i s t he
  obtain ⟨a, bs, h⟩ := exists_accessesListedBytes he
  refine ⟨fun x hx => ?_, fun m hs hm hagree =>
    ⟨_, h.exec_setMem m hagree, fun _ => rfl, rfl, rfl, ⟨rfl, rfl, rfl⟩, fun x hx => ?_,
      fun x hx => h.byte_of_not_written m hx⟩⟩
  · rw [State.byte, h.mem_eq he, h.byte_of_not_written _ hx]
    rfl
  · rw [State.byte, State.byte, h.mem_eq he]
    exact h.byte_of_written hs hm hx

end Sys2Proof.Machine
end

section
/-! The family 30_encoding.md: the fields as numbers (R61 to R71), and the classifier's word conditions (R75 to R83). The
ordered steps read the opcode table from the top; and no two rows share a word, because their values differ on a bit
that both masks test (R84), so the first row that matches is the only one. -/

namespace Sys2Proof.Laws

/-! ### The fields as numbers -/

section
variable (w : Word)

theorem toNat_extractLsb'_eq_div (start len : Nat) :
    (w.extractLsb' start len).toNat = w.toNat / 2 ^ start % 2 ^ len := by
  rw [BitVec.extractLsb'_toNat, Nat.shiftRight_eq_div_pow]

theorem toNat_extractLsb'_zero (len : Nat) : (w.extractLsb' 0 len).toNat = w.toNat % 2 ^ len := by
  rw [toNat_extractLsb'_eq_div, pow_zero, Nat.div_one]

/-- A field that ends at the top bit is a quotient. -/
theorem toNat_extractLsb'_top {start len : Nat} (h : start + len = 32) :
    (w.extractLsb' start len).toNat = w.toNat / 2 ^ start := by
  rw [toNat_extractLsb'_eq_div, Nat.mod_eq_of_lt]
  rw [Nat.div_lt_iff_lt_mul (Nat.two_pow_pos _), ← pow_add, add_comm, h]
  exact w.isLt

theorem toNat_fieldOp : (fieldOp w).toNat = w.toNat / 2 ^ 26 := toNat_extractLsb'_top w rfl
theorem toNat_fieldOp11 : (fieldOp11 w).toNat = w.toNat / 2 ^ 21 := toNat_extractLsb'_top w rfl
theorem toNat_fieldS : (fieldS w).toNat = w.toNat / 2 ^ 21 % 2 ^ 5 := toNat_extractLsb'_eq_div w 21 5
theorem toNat_fieldT : (fieldT w).toNat = w.toNat / 2 ^ 16 % 2 ^ 5 := toNat_extractLsb'_eq_div w 16 5
theorem toNat_fieldD : (fieldD w).toNat = w.toNat / 2 ^ 11 % 2 ^ 5 := toNat_extractLsb'_eq_div w 11 5
theorem toNat_fieldI16 : (fieldI16 w).toNat = w.toNat % 2 ^ 16 := toNat_extractLsb'_zero w 16
theorem toNat_fieldI5 : (fieldI5 w).toNat = w.toNat / 2 ^ 6 % 2 ^ 5 := toNat_extractLsb'_eq_div w 6 5
theorem toNat_fieldX : (fieldX w).toNat = w.toNat % 2 ^ 26 := toNat_extractLsb'_zero w 26
theorem toNat_fieldEnd21 : (fieldEnd21 w).toNat = w.toNat % 2 ^ 21 := toNat_extractLsb'_zero w 21
theorem toNat_fieldEnd6 : (fieldEnd6 w).toNat = w.toNat % 2 ^ 6 := toNat_extractLsb'_zero w 6
theorem toNat_fieldLen11 : (fieldLen11 w).toNat = w.toNat % 2 ^ 11 := toNat_extractLsb'_zero w 11

theorem toNat_fieldOp11_eq_add : (fieldOp11 w).toNat = 32 * (fieldOp w).toNat + (fieldS w).toNat := by
  rw [toNat_fieldOp11, toNat_fieldOp, toNat_fieldS]
  omega

theorem toNat_fieldLen11_eq_add : (fieldLen11 w).toNat = 64 * (fieldI5 w).toNat + (fieldEnd6 w).toNat := by
  rw [toNat_fieldLen11, toNat_fieldI5, toNat_fieldEnd6]
  omega

end

/-! ### Rows as conditions on fields

Under each mask of the table a word is a concatenation of fields and zeros, so a row says what those fields are. -/

theorem append_eq_append_iff {m n : Nat} (a c : BitVec m) (b d : BitVec n) :
    a ++ b = c ++ d ↔ a = c ∧ b = d := by
  refine ⟨fun h => ⟨?_, ?_⟩, fun ⟨ha, hb⟩ => ha ▸ hb ▸ rfl⟩
  · simpa only [BitVec.extractLsb'_append_eq_left] using congrArg (BitVec.extractLsb' n m) h
  · simpa only [BitVec.extractLsb'_append_eq_right] using congrArg (BitVec.extractLsb' 0 n) h

/-- The tag of the first row whose pattern the word has. -/
def firstTag (rows : List OpcodeRow) (w : Word) : Option Tag := (rows.find? (·.matches w)).map (·.tag)

@[simp] theorem firstTag_nil (w : Word) : firstTag [] w = none := rfl

theorem firstTag_cons_of_iff {r : OpcodeRow} {w : Word} {p : Prop} [Decidable p] (h : w &&& r.mask = r.value ↔ p)
    (rows : List OpcodeRow) : firstTag (r :: rows) w = if p then some r.tag else firstTag rows w := by
  by_cases hp : p <;> simp [firstTag, OpcodeRow.matches, h, hp]

theorem getD_firstTag_append (rows rows' : List OpcodeRow) (w : Word) (t : Tag) :
    (firstTag (rows ++ rows') w).getD t = (firstTag rows w).getD ((firstTag rows' w).getD t) := by
  simp only [firstTag, List.find?_append]
  cases rows.find? (·.matches w) <;> rfl

/-- The row that fixes `op`. -/
def opRow (t : Tag) (op : BitVec 6) : OpcodeRow := ⟨t, 0xFC000000, op ++ 0#26⟩

/-- The row that fixes `op` and `len_11`. -/
def opLen11Row (t : Tag) (op : BitVec 6) (len : BitVec 11) : OpcodeRow := ⟨t, 0xFC0007FF, op ++ 0#15 ++ len⟩

/-- The row that fixes `op_11` and `end_6`. -/
def op11End6Row (t : Tag) (op11 : BitVec 11) (f : BitVec 6) : OpcodeRow := ⟨t, 0xFFE0003F, op11 ++ 0#15 ++ f⟩

/-- The row that fixes `op_11`. -/
def op11Row (t : Tag) (op11 : BitVec 11) : OpcodeRow := ⟨t, 0xFFE00000, op11 ++ 0#21⟩

/-- The row that fixes `op` and `t`. -/
def opTRow (t : Tag) (op : BitVec 6) (rt : RegIdx) : OpcodeRow := ⟨t, 0xFC1F0000, op ++ 0#5 ++ rt ++ 0#16⟩

/-- The row that fixes `op` and `end_21`. -/
def opEnd21Row (t : Tag) (op : BitVec 6) (e : BitVec 21) : OpcodeRow := ⟨t, 0xFC1FFFFF, op ++ 0#5 ++ e⟩

section
variable (w : Word) (t : Tag) (rows : List OpcodeRow) (op f : BitVec 6) (rt : RegIdx) (op11 len : BitVec 11)
  (e : BitVec 21)

@[simp] theorem firstTag_opRow :
    firstTag (opRow t op :: rows) w = if fieldOp w = op then some t else firstTag rows w :=
  firstTag_cons_of_iff (by rw [opRow, and_maskOp, BitVec.append_left_inj]) rows

@[simp] theorem firstTag_opLen11Row :
    firstTag (opLen11Row t op len :: rows) w =
      if fieldOp w = op ∧ fieldLen11 w = len then some t else firstTag rows w :=
  firstTag_cons_of_iff
    (by rw [opLen11Row, and_maskLen11, append_eq_append_iff, BitVec.append_left_inj]) rows

@[simp] theorem firstTag_op11End6Row :
    firstTag (op11End6Row t op11 f :: rows) w =
      if fieldOp11 w = op11 ∧ fieldEnd6 w = f then some t else firstTag rows w :=
  firstTag_cons_of_iff
    (by rw [op11End6Row, and_maskOp11End6, append_eq_append_iff, BitVec.append_left_inj]) rows

@[simp] theorem firstTag_op11Row :
    firstTag (op11Row t op11 :: rows) w = if fieldOp11 w = op11 then some t else firstTag rows w :=
  firstTag_cons_of_iff (by rw [op11Row, and_maskOp11, BitVec.append_left_inj]) rows

@[simp] theorem firstTag_opTRow :
    firstTag (opTRow t op rt :: rows) w = if fieldOp w = op ∧ fieldT w = rt then some t else firstTag rows w :=
  firstTag_cons_of_iff
    (by rw [opTRow, and_maskOpT, BitVec.append_left_inj, append_eq_append_iff, BitVec.append_left_inj]) rows

@[simp] theorem firstTag_opEnd21Row :
    firstTag (opEnd21Row t op e :: rows) w =
      if fieldOp w = op ∧ fieldEnd21 w = e then some t else firstTag rows w :=
  firstTag_cons_of_iff
    (by rw [opEnd21Row, and_maskEnd21, append_eq_append_iff, BitVec.append_left_inj]) rows

end

/-! ### The rows of each step of the classifier -/

/-- The rows of step 1 (R75). -/
def step1Rows : List OpcodeRow :=
  [opLen11Row .add 0 0x020, opLen11Row .addu 0 0x021, opLen11Row .sub 0 0x022, opLen11Row .and 0 0x024,
    opLen11Row .or 0 0x025, opLen11Row .xor 0 0x026, opLen11Row .sllv 0 0x004, opLen11Row .srlv 0 0x006,
    opLen11Row .slt 0 0x02A]

/-- The rows of step 2 (R76). -/
def step2Rows : List OpcodeRow := [opLen11Row .mul 0x1C 0x002]

/-- The rows of step 3 (R77). -/
def step3Rows : List OpcodeRow :=
  [opRow .addi 0x08, opRow .andi 0x0C, opRow .ori 0x0D, opRow .xori 0x0E, opRow .slti 0x0A]

/-- The rows of step 4 (R78). -/
def step4Rows : List OpcodeRow := [op11End6Row .sll 0 0x00, op11End6Row .srl 0 0x02]

/-- The rows of step 5 (R79). -/
def step5Rows : List OpcodeRow := [op11Row .lui luiOp11]

/-- The rows of step 6 (R80). -/
def step6Rows : List OpcodeRow :=
  [opRow .lb 0x20, opRow .lh 0x21, opRow .lw 0x23, opRow .sb 0x28, opRow .sh 0x29, opRow .sw 0x2B]

/-- The rows of step 7 (R81). -/
def step7Rows : List OpcodeRow :=
  [opRow .beq 0x04, opRow .bne 0x05, opRow .blez 0x06, opRow .bgtz 0x07, opTRow .bltz 0x01 0, opTRow .bgez 0x01 1]

/-- The rows of step 8 (R82). -/
def step8Rows : List OpcodeRow := [opRow .j 0x02, opRow .jal 0x03, opEnd21Row .jr 0 0x08]

theorem opcodeTable_eq_steps :
    opcodeTable = step1Rows ++ (step2Rows ++ (step3Rows ++ (step4Rows ++ (step5Rows ++ (step6Rows ++
      (step7Rows ++ step8Rows)))))) := by decide

section
variable (w : Word)

/-- The step tests `op` once, each of its rows tests it again. -/
theorem classifyStep1_eq : classifyStep1 w = firstTag step1Rows w := by
  by_cases hop : fieldOp w = 0#6 <;> simp [classifyStep1, step1Rows, hop]

theorem classifyStep2_eq : classifyStep2 w = firstTag step2Rows w := by simp [classifyStep2, step2Rows]
theorem classifyStep3_eq : classifyStep3 w = firstTag step3Rows w := by simp [classifyStep3, step3Rows]
theorem classifyStep4_eq : classifyStep4 w = firstTag step4Rows w := by simp [classifyStep4, step4Rows]
theorem classifyStep5_eq : classifyStep5 w = firstTag step5Rows w := by simp [classifyStep5, step5Rows]
theorem classifyStep6_eq : classifyStep6 w = firstTag step6Rows w := by simp [classifyStep6, step6Rows]
theorem classifyStep7_eq : classifyStep7 w = firstTag step7Rows w := by simp [classifyStep7, step7Rows]
theorem classifyStep8_eq : classifyStep8 w = firstTag step8Rows w := by simp [classifyStep8, step8Rows]

/-- R74: a step that gives no tag leaves the word to the next one. -/
theorem classify_eq_getD_steps :
    classify w = (classifyStep1 w).getD ((classifyStep2 w).getD ((classifyStep3 w).getD ((classifyStep4 w).getD
      ((classifyStep5 w).getD ((classifyStep6 w).getD ((classifyStep7 w).getD
        ((classifyStep8 w).getD .systemcall))))))) := by
  unfold classify
  iterate 8
    split
    · simp only [*, Option.getD_none, Option.getD_some]
  simp only [*, Option.getD_none]

theorem tableTag_eq_getD_firstTag : tableTag w = (firstTag opcodeTable w).getD .systemcall := by
  unfold tableTag firstTag
  cases opcodeTable.find? (·.matches w) <;> rfl

/-- R74 to R83 and R91: the ordered steps are the table read from the top. -/
theorem classify_eq_tableTag : classify w = tableTag w := by
  rw [classify_eq_getD_steps, tableTag_eq_getD_firstTag, opcodeTable_eq_steps]
  simp only [getD_firstTag_append, classifyStep1_eq, classifyStep2_eq, classifyStep3_eq, classifyStep4_eq,
    classifyStep5_eq, classifyStep6_eq, classifyStep7_eq, classifyStep8_eq]

end

/-! ### The table's rows are told apart by their words and by their tags -/

theorem opcodeTable_tags_nodup : (opcodeTable.map OpcodeRow.tag).Nodup := by decide

theorem tag_ne_systemcall : ∀ r ∈ opcodeTable, r.tag ≠ .systemcall := by decide

/-- The values of two different rows differ on a bit that both masks test. -/
theorem row_eq_of_values_agree :
    ∀ r ∈ opcodeTable, ∀ r' ∈ opcodeTable, r.value &&& r'.mask = r'.value &&& r.mask → r = r' := by decide

section
variable {w : Word} {r r' : OpcodeRow}

theorem row_eq_of_pattern (hr : r ∈ opcodeTable) (hr' : r' ∈ opcodeTable) (h : w &&& r.mask = r.value)
    (h' : w &&& r'.mask = r'.value) : r = r' := by
  refine row_eq_of_values_agree r hr r' hr' ?_
  rw [← h, ← h', BitVec.and_assoc, BitVec.and_assoc, BitVec.and_comm r.mask]

theorem tableTag_cases (w : Word) :
    (∃ r ∈ opcodeTable, w &&& r.mask = r.value ∧ tableTag w = r.tag) ∨
    ((∀ r ∈ opcodeTable, w &&& r.mask ≠ r.value) ∧ tableTag w = .systemcall) := by
  unfold tableTag
  cases hfind : opcodeTable.find? (·.matches w) with
  | some r =>
    exact .inl ⟨r, List.mem_of_find?_eq_some hfind, eq_of_beq (List.find?_some hfind :), rfl⟩
  | none => exact .inr ⟨fun r hr h => List.find?_eq_none.1 hfind r hr (beq_iff_eq.2 h), rfl⟩

theorem tableTag_eq_iff (hr : r ∈ opcodeTable) : tableTag w = r.tag ↔ w &&& r.mask = r.value := by
  rcases tableTag_cases w with ⟨r₀, hr₀, h₀, htag⟩ | ⟨hnone, htag⟩ <;> rw [htag]
  · refine ⟨fun h => ?_, fun h => ?_⟩
    · rwa [← List.inj_on_of_nodup_map opcodeTable_tags_nodup hr₀ hr h]
    · rw [row_eq_of_pattern hr₀ hr h₀ h]
  · exact iff_of_false (tag_ne_systemcall r hr).symm (hnone r hr)

theorem tableTag_eq_systemcall_iff : tableTag w = .systemcall ↔ ∀ r ∈ opcodeTable, w &&& r.mask ≠ r.value := by
  rcases tableTag_cases w with ⟨r₀, hr₀, h₀, htag⟩ | ⟨hnone, htag⟩ <;> rw [htag]
  · exact iff_of_false (tag_ne_systemcall r₀ hr₀) fun h => h r₀ hr₀ h₀
  · exact iff_of_true rfl hnone

end

theorem tag_assemble (t : Tag) (w : Word) : (assemble t w).tag = t := by cases t <;> rfl

theorem tag_decode (w : Word) : (decode w).tag = tableTag w :=
  (tag_assemble _ w).trans (classify_eq_tableTag w)

/-- Settles O3: the classifier reads the table, in which no two rows share a word or a tag. -/
theorem classifierIsTheWordConditions : Obligations.ClassifierIsTheWordConditions := by
  intro w
  rw [tag_decode]
  exact ⟨fun _ hr => tableTag_eq_iff hr, tableTag_eq_systemcall_iff⟩

/-- Settles O2: the fields as quotients and remainders of the word. -/
theorem fieldsAreTheNamedBitRanges : Obligations.FieldsAreTheNamedBitRanges := fun w =>
  ⟨toNat_fieldOp w, toNat_fieldOp11 w, toNat_fieldOp11_eq_add w, toNat_fieldS w, toNat_fieldT w, toNat_fieldD w,
    toNat_fieldI16 w, BitVec.le_toInt _, Int.le_sub_one_of_lt BitVec.toInt_lt, toNat_fieldI5 w, toNat_fieldX w,
    toNat_fieldEnd21 w, toNat_fieldEnd6 w, toNat_fieldLen11 w, toNat_fieldLen11_eq_add w⟩

end Sys2Proof.Laws
end

section
/-! The family 40_execute_cycle.md: the termination result (R96). Every next state comes from an advance, a branch or a
jump, which do not halt, except the one that selector 10 of SYSTEMCALL answers (R186). -/

namespace Sys2Proof.Machine

section
variable {i : Instr} {s t : State} {w : Word}

theorem exec_systemcall_ten (w : Word) (h : s.reg regSel = 10) :
    exec (.systemcall w) s = .next (s.complete s.pc true) :=
  exec_systemcall_of_selector w s 10 h

/-- Every service but selector 10 ends with the advance. -/
theorem exists_eq_advance_of_selector_ne_ten (h10 : s.reg regSel ≠ 10) (h : exec (.systemcall w) s = .next t) :
    ∃ u : State, t = u.advance := by
  rcases systemcall_next_cases h with ⟨-, rfl⟩ | ⟨-, n, -, -, -, rfl⟩ |
    ⟨-, n, rest, -, ⟨-, rfl⟩ | ⟨-, rfl⟩ | ⟨-, -, rfl⟩⟩ | ⟨-, -, rfl⟩ | ⟨-, -, rfl⟩ | ⟨hs, -⟩ | ⟨-, rfl⟩ |
    ⟨-, c, rest, -, rfl⟩ | ⟨-, -, rfl⟩ | ⟨-, rfl⟩
  case inr.inr.inr.inr.inr.inl => exact absurd hs h10
  all_goals exact ⟨_, rfl⟩

theorem halted_iff_of_systemcall_next (h : exec (.systemcall w) s = .next t) :
    t.halted = true ↔ s.reg regSel = 10 := by
  by_cases h10 : s.reg regSel = 10
  · cases (exec_systemcall_ten w h10).symm.trans h
    exact iff_of_true rfl h10
  · obtain ⟨u, rfl⟩ := exists_eq_advance_of_selector_ne_ten h10 h
    exact iff_of_false (by simp) h10

theorem halted_eq_false_of_not_systemcall (hi : ∀ w, i ≠ .systemcall w) (h : exec i s = .next t) :
    t.halted = false := by
  cases i
  case systemcall w => exact absurd rfl (hi w)
  case sb | sh | sw =>
    simp only [exec_sb, exec_sh, exec_sw] at h
    cases h
    rfl
  all_goals
    cases h
    rfl

end

/-- Settles O33: only SYSTEMCALL can halt, and of its services only selector 10, which changes nothing else. -/
theorem terminationIsSelectorTenOnly : Obligations.TerminationIsSelectorTenOnly := by
  refine ⟨fun i s t h => ?_, fun w s h10 =>
    ⟨_, exec_systemcall_ten w h10, rfl, rfl, fun _ => rfl, fun _ => rfl, rfl, rfl, rfl⟩⟩
  by_cases hi : ∃ w, i = .systemcall w
  · obtain ⟨w, rfl⟩ := hi
    rw [halted_iff_of_systemcall_next h, and_iff_right ⟨w, rfl⟩]
  · have hlive : t.halted = false := halted_eq_false_of_not_systemcall (not_exists.1 hi) h
    simp [hlive, hi]

end Sys2Proof.Machine
end

section
/-! The family 41_arithmetic.md: ADD and ADDU (R101, R102). A word of a table row decodes to what the row's tag extracts,
the R-layout word that `wordR` ors together is the one `encodeR` concatenates, and the shared end of the register-writing
meanings does what `WritesRegister` says. -/

namespace Sys2Proof.Machine

open Sys2Proof.Laws

/-- A word with a row's pattern decodes to the instruction of the row's tag. -/
theorem decodesAs_of_mem {r : OpcodeRow} (hr : r ∈ opcodeTable) : DecodesAs r.mask r.value (assemble r.tag) := by
  intro w hw
  rw [decode, classify_eq_tableTag, (tableTag_eq_iff hr).2 hw]

/-- The operands of an R-layout word fill the zeros of its base. -/
theorem wordR_encodeR (op f : BitVec 6) (s t d i : BitVec 5) :
    wordR (encodeR op 0 0 0 i f) s t d = encodeR op s t d i f := by
  apply BitVec.eq_of_getLsbD_eq
  intro k hk
  simp only [wordR, encodeR, BitVec.getLsbD_or, BitVec.getLsbD_shiftLeft, BitVec.getLsbD_setWidth,
    BitVec.getLsbD_append]
  interval_cases k <;> simp

theorem decode_wordR_of_decodesAs {op f : BitVec 6} {i : BitVec 5} {base : Word} {g : Word → Instr}
    (hbase : base = encodeR op 0 0 0 i f) (h : DecodesAs 0xFC0007FF base g) (s t d : RegIdx) :
    decode (wordR base s t d) = g (encodeR op s t d i f) := by
  subst hbase
  rw [wordR_encodeR]
  exact h _ (encodeR_len11 op f s t d i)

/-- A meaning that is `writeAndAdvance` writes the one register, register 0 by the read-after-write law of the port. -/
theorem writesRegister_of_exec_eq {i : Instr} {s : State} {d : RegIdx} {v : Word}
    (h : exec i s = writeAndAdvance s d v) : WritesRegister i s d v :=
  ⟨(s.setReg d v).advance, h, fun r => State.reg_setReg s d r v, rfl, rfl, fun _ => rfl, rfl, rfl, rfl⟩

/-- Settles O17: the two rows of the table, and the sum of words as the sum of numbers modulo 2^32. -/
theorem addAndAdduWriteTheWrappedSum : Obligations.AddAndAdduWriteTheWrappedSum := by
  have hadd : DecodesAs 0xFC0007FF 0x00000020 (assemble .add) :=
    decodesAs_of_mem (r := ⟨.add, 0xFC0007FF, 0x00000020⟩) (by decide)
  have haddu : DecodesAs 0xFC0007FF 0x00000021 (assemble .addu) :=
    decodesAs_of_mem (r := ⟨.addu, 0xFC0007FF, 0x00000021⟩) (by decide)
  refine ⟨hadd, haddu, fun s rd rs rt => ⟨?_, ?_⟩⟩
  · calc decode (wordR 0x20 rs rt rd)
        = assemble .add (encodeR 0 rs rt rd 0 0x20) := decode_wordR_of_decodesAs (by decide) hadd rs rt rd
      _ = .add rd rs rt := by simp [assemble]
  · rw [← BitVec.add_def]
    exact ⟨writesRegister_of_exec_eq rfl, writesRegister_of_exec_eq rfl⟩

end Sys2Proof.Machine
end

section
/-! The family 47_jump.md: J and JR (R170, R171, R173). Of the words with opcode 0 and funct code 8 only those with zeros
in `t`, `d` and `I_5` match a row, the one of JR; and a jump's only effect is the next `pc`, whose or of two masked parts
is a concatenation. -/

namespace Sys2Proof.Machine

open Sys2Proof.Laws

/-- J's row of the table. -/
def jRow : OpcodeRow := ⟨.j, 0xFC000000, 0x08000000⟩

/-- JR's row of the table. -/
def jrRow : OpcodeRow := ⟨.jr, 0xFC1FFFFF, 0x00000008⟩

theorem jRow_mem : jRow ∈ opcodeTable := by decide

theorem jrRow_mem : jrRow ∈ opcodeTable := by decide

theorem encodeJ_eq_or (x : BitVec 26) : encodeJ 0x02 x = 0x08000000 ||| x.setWidth 32 :=
  BitVec.append_def 0x02#6 x

theorem encodeR_jr_eq_or (s : RegIdx) : encodeR 0 s 0 0 0 0x08 = s.setWidth 32 <<< 21 ||| 8 := by
  calc encodeR 0 s 0 0 0 0x08
      = wordR 8 s 0 0 := (wordR_encodeR 0 0x08 s 0 0 0).symm
    _ = s.setWidth 32 <<< 21 ||| 8 := by simp [wordR, BitVec.or_comm]

/-- Every other row differs from JR's on a bit of `op` or of the funct code that its mask tests. -/
theorem row_eq_jrRow_of_values_agree :
    ∀ r ∈ opcodeTable, r.value &&& 0xFC00003F = 0x00000008 &&& r.mask → r = jrRow := by decide

/-- R82, R83: opcode 0 with the funct code of JR is SYSTEMCALL unless the whole pattern of JR is there. -/
theorem decode_eq_systemcall_of_funct_eight {w : Word} (hfunct : w &&& 0xFC00003F = 0x00000008)
    (hjr : w &&& 0xFC1FFFFF ≠ 0x00000008) : decode w = .systemcall w := by
  have hnone : ∀ r ∈ opcodeTable, w &&& r.mask ≠ r.value := by
    intro r hr hw
    have hrow : r = jrRow := by
      refine row_eq_jrRow_of_values_agree r hr ?_
      rw [← hw, ← hfunct, BitVec.and_assoc, BitVec.and_assoc, BitVec.and_comm r.mask]
    subst hrow
    exact hjr hw
  rw [decode, classify_eq_tableTag, tableTag_eq_systemcall_iff.2 hnone]
  rfl

/-- R170: the target keeps the top four bits of the jump's own address and ends in two zeros. -/
theorem jumpTarget_eq_append (pc : Word) (x : BitVec 26) :
    jumpTarget pc x = (pc.extractLsb' 28 4 ++ x ++ 0#2 : Word) := by
  apply BitVec.eq_of_getLsbD_eq
  intro k hk
  simp only [jumpTarget, zext32, BitVec.getLsbD_or, BitVec.getLsbD_and, BitVec.getLsbD_shiftLeft,
    BitVec.getLsbD_setWidth, BitVec.getLsbD_append, BitVec.getLsbD_extractLsb']
  interval_cases k <;> simp

/-- A meaning that only completes the activation, without a halt, goes to the `pc` it completes with. -/
theorem goesTo_of_exec_eq {i : Instr} {s : State} {target : Word} (h : exec i s = .next (s.complete target false)) :
    GoesTo i s target :=
  ⟨s.complete target false, h, rfl, rfl, fun _ => rfl, fun _ => rfl, rfl, rfl, rfl⟩

theorem goesTo_jumpTarget_of_j (s : State) (x : BitVec 26) : GoesTo (.j x) s (jumpTarget s.pc x) :=
  goesTo_of_exec_eq rfl

theorem goesTo_reg_of_jr (s : State) (rs : RegIdx) : GoesTo (.jr rs) s (s.reg rs) := goesTo_of_exec_eq rfl

/-- Settles O29: the two rows of the table, the words that miss the row of JR, and the two forms of J's target. -/
theorem jumpAndJumpRegisterGoToTheirTargets : Obligations.JumpAndJumpRegisterGoToTheirTargets := by
  have hj : DecodesAs 0xFC000000 0x08000000 (assemble .j) := decodesAs_of_mem jRow_mem
  have hjr : DecodesAs 0xFC1FFFFF 0x00000008 (assemble .jr) := decodesAs_of_mem jrRow_mem
  refine ⟨hj, hjr, fun w => decode_eq_systemcall_of_funct_eight, fun s x rs => ⟨?_, ?_,
    goesTo_jumpTarget_of_j s x, jumpTarget_eq_append s.pc x ▸ goesTo_jumpTarget_of_j s x, goesTo_reg_of_jr s rs⟩⟩
  · calc decode (0x08000000 ||| x.setWidth 32)
        = decode (encodeJ 0x02 x) := by rw [encodeJ_eq_or]
      _ = assemble .j (encodeJ 0x02 x) := hj _ (encodeJ_op 0x02 x)
      _ = .j x := by simp [assemble]
  · calc decode (rs.setWidth 32 <<< 21 ||| 8)
        = decode (encodeR 0 rs 0 0 0 0x08) := by rw [encodeR_jr_eq_or]
      _ = assemble .jr (encodeR 0 rs 0 0 0 0x08) := hjr _ (encodeR_jr 0 0x08 rs 0 0 0)
      _ = .jr rs := by simp [assemble]

end Sys2Proof.Machine
end

section
/-! The family 48_syscall.md: selector 5 (R183). Whatever it scans, it sets the input left and writes one value, chosen or
free, to the result register; which value is a matter of the range the scanned number is in. -/

namespace Sys2Proof.Machine

/-- The activation leaves `rest` of the console input, writes `v` to the result register and advances, and changes nothing
else but the free counter. -/
def ReadsResult (i : Instr) (s : State) (rest : List Byte) (v : Word) : Prop :=
  ∃ t, exec i s = .next t ∧ (∀ r, t.reg r = readsAfterWrite s regRes v r) ∧ t.conIn = rest ∧ t.pc = s.pc + 4 ∧
    t.halted = false ∧ SameMemory s t ∧ t.conOut = s.conOut

section
variable {i : Instr} {s : State} {w : Word} {rest : List Byte} {n : Int}

theorem readsResult_of_exec_eq_setReg {v : Word}
    (h : exec i s = .next ((s.setConIn rest).setReg regRes v).advance) : ReadsResult i s rest v :=
  ⟨_, h, fun r => State.reg_setReg (s.setConIn rest) regRes r v, rfl, rfl, rfl, fun _ => rfl, rfl⟩

theorem readsResult_of_exec_eq_setRegFree
    (h : exec i s = .next ((s.setConIn rest).setRegFree regRes).advance) :
    ReadsResult i s rest (freeWord s.freeIndex) :=
  ⟨_, h, fun r => State.reg_setReg (s.setConIn rest) regRes r _, rfl, rfl, rfl, fun _ => rfl, rfl⟩

/-- U5: a failed scan. -/
theorem readsResult_of_scanInt_eq_none (h5 : s.reg regSel = 5) (hscan : scanInt s.conIn = none) :
    ReadsResult (.systemcall w) s (s.conIn.drop (freeCount s.freeIndex)) (freeWord s.freeIndex) := by
  refine readsResult_of_exec_eq_setRegFree ((exec_systemcall_of_selector w s 5 h5).trans ?_)
  simp [readInteger, hscan]

/-- R183: the value by the scanned number's range; below it (U4) the value is free. -/
theorem exists_readsResult_of_scanInt_eq_some (h5 : s.reg regSel = 5) (hscan : scanInt s.conIn = some (n, rest)) :
    ∃ v, ReadsResult (.systemcall w) s rest v ∧
      (n > 2147483647 → v = 0x7FFFFFFF) ∧ (-2147483648 ≤ n → n ≤ 2147483647 → v.toInt = n) := by
  have he : exec (.systemcall w) s = readInteger s := exec_systemcall_of_selector w s 5 h5
  simp only [readInteger, hscan] at he
  split_ifs at he with habove hbelow
  · exact ⟨_, readsResult_of_exec_eq_setReg he, fun _ => rfl, fun _ _ => by omega⟩
  · exact ⟨_, readsResult_of_exec_eq_setRegFree he, fun _ => by omega, fun _ _ => by omega⟩
  · exact ⟨_, readsResult_of_exec_eq_setReg he, fun _ => by omega, fun hlo hhi =>
      BitVec.toInt_ofInt_eq_self (by decide) (by omega) (by omega)⟩

end

/-- Settles O38: by whether the scan gives a number. -/
theorem readIntegerClampsFromAbove : Obligations.ReadIntegerClampsFromAbove := by
  intro w s h5
  cases hscan : scanInt s.conIn with
  | none =>
    obtain ⟨t, he, hreg, hin, hframe⟩ := readsResult_of_scanInt_eq_none (w := w) h5 hscan
    exact ⟨t, _, he, hreg, nofun, fun _ => ⟨_, hin⟩, hframe⟩
  | some scanned =>
    obtain ⟨n, rest⟩ := scanned
    obtain ⟨v, ⟨t, he, hreg, hin, hframe⟩, habove, hrange⟩ := exists_readsResult_of_scanInt_eq_some (w := w) h5 hscan
    refine ⟨t, v, he, hreg, ?_, nofun, hframe⟩
    rintro _ _ ⟨⟩
    exact ⟨hin, habove, hrange⟩

end Sys2Proof.Machine
end

section
/-! The family 70_reset_and_hazards.md: every activation completes, but for the two cases that the spec leaves without an
end (U6) or a meaning (U7) (R231). Both are services of SYSTEMCALL: every other instruction answers a next state. -/

namespace Sys2Proof.Machine

/-- Neither a number below the range (U4) nor a failed scan (U5) stops selector 5: both take a free value. -/
theorem readInteger_completes (s : State) : ∃ t, readInteger s = .next t := by
  rw [readInteger]
  rcases scanInt s.conIn with - | ⟨n, rest⟩
  · exact ⟨_, rfl⟩
  · dsimp only
    split_ifs <;> exact ⟨_, rfl⟩

/-- The end of input (U8) does not block selector 12: it takes a free value. -/
theorem readCharacter_completes (s : State) : ∃ t, readCharacter s = .next t := by
  rw [readCharacter]
  rcases s.conIn with - | ⟨c, rest⟩ <;> exact ⟨_, rfl⟩

theorem exec_completes_of_not_systemcall {i : Instr} (hi : ∀ w, i ≠ .systemcall w) (s : State) :
    ∃ t, exec i s = .next t := by
  cases i
  case systemcall w => exact absurd rfl (hi w)
  case sb rt off rb => exact ⟨_, exec_sb rt rb off s⟩
  case sh rt off rb => exact ⟨_, exec_sh rt rb off s⟩
  case sw rt off rb => exact ⟨_, exec_sw rt rb off s⟩
  case lb rt off rb => exact ⟨_, exec_lb_eq_writeAndAdvance rt rb off s⟩
  case lh rt off rb => exact ⟨_, exec_lh_eq_writeAndAdvance rt rb off s⟩
  case lw rt off rb => exact ⟨_, exec_lw_eq_writeAndAdvance rt rb off s⟩
  -- a register write, a branch and a jump answer their one next state
  all_goals exact ⟨_, rfl⟩

/-- Only the print-string loop and the length of selector 8 can stop a SYSTEMCALL. -/
theorem exec_systemcall_completes_or_stops (w : Word) (s : State) :
    (∃ t, exec (.systemcall w) s = .next t) ∨
    (s.reg regSel = 4 ∧ (∀ a : Word, s.byte a ≠ 0) ∧ exec (.systemcall w) s = .fault .printStringNeverEnds) ∨
    (s.reg regSel = 8 ∧ s.reg regA1 = 0 ∧ exec (.systemcall w) s = .refused .readStringLengthZero) := by
  rcases exec_systemcall_cases w s with ⟨-, e⟩ | ⟨h4, e⟩ | ⟨-, e⟩ | ⟨h8, e⟩ | ⟨-, e⟩ | ⟨-, e⟩ | ⟨-, e⟩ | ⟨-, e⟩ <;>
    rw [e]
  case inr.inl =>
    rcases printString_cases s with ⟨n, -, -, -, hprint⟩ | ⟨hne, hprint⟩
    · exact .inl ⟨_, hprint⟩
    · exact .inr (.inl ⟨h4, hne, hprint⟩)
  case inr.inr.inl => exact .inl (readInteger_completes s)
  case inr.inr.inr.inl =>
    by_cases hlen : s.reg regA1 = 0
    · exact .inr (.inr ⟨h8, hlen, (readString_eq s).trans (if_pos hlen)⟩)
    · exact .inl ⟨_, (readString_eq s).trans (if_neg hlen)⟩
  case inr.inr.inr.inr.inr.inr.inl => exact .inl (readCharacter_completes s)
  -- selectors 1, 10, 11 and the selectors that name no service answer one next state
  all_goals exact .inl ⟨_, rfl⟩

/-- Settles O46: by whether the instruction is SYSTEMCALL. -/
theorem everyOtherActivationCompletes : Obligations.EveryOtherActivationCompletes := by
  intro i s
  by_cases hi : ∃ w, i = .systemcall w
  · obtain ⟨w, rfl⟩ := hi
    rcases exec_systemcall_completes_or_stops w s with hnext | hstuck | hrefused
    · exact .inl hnext
    · exact .inr (.inl ⟨rfl, hstuck⟩)
    · exact .inr (.inr ⟨rfl, hrefused⟩)
  · exact .inl (exec_completes_of_not_systemcall (not_exists.1 hi) s)

end Sys2Proof.Machine
end

section
/-! The family 30_encoding.md: the two round trips of decoder and encoder (R72 to R74, R83, R85). Each row of the table
fixes the bits that no operand of its tag holds. So an encoded instruction has its own row's pattern and decodes to that
row's tag, and a word with a row's pattern is rebuilt from the row and the fields that the tag extracts. -/

namespace Sys2Proof.Laws

/-- Settles O4: the values of two rows differ on a bit that both masks test. -/
theorem wordPatternsAreDisjoint : Obligations.WordPatternsAreDisjoint := fun _ _ hr _ hr' => row_eq_of_pattern hr hr'

/-- Settles O1: by running the decoder on the words. -/
theorem specWordsDecodeToTheirInstructions : Obligations.SpecWordsDecodeToTheirInstructions := by
  unfold Obligations.SpecWordsDecodeToTheirInstructions
  decide

/-- Settles O7: no meaning mentions those bits. -/
theorem ignoredBitsHaveNoEffect : Obligations.IgnoredBitsHaveNoEffect := fun _ =>
  ⟨fun _ _ => rfl, fun _ _ _ _ => rfl, fun _ _ _ _ => rfl⟩

/-! ### Decoding an encoded instruction -/

theorem isCatchAll_eq_true_iff {w : Word} : isCatchAll w = true ↔ tableTag w = .systemcall := by
  simp [isCatchAll, OpcodeRow.matches, tableTag_eq_systemcall_iff]

/-- The word of a well-formed instruction has the pattern of the instruction's own row, whichever instruction it is. -/
theorem encode_matches_row (i : Instr) : EncodingMatchesRow.Statement i := by
  open EncodingMatchesRow in
  cases i with
  | add => exact add _ _ _
  | addu => exact addu _ _ _
  | sub => exact sub _ _ _
  | and => exact EncodingMatchesRow.and _ _ _
  | or => exact EncodingMatchesRow.or _ _ _
  | xor => exact EncodingMatchesRow.xor _ _ _
  | sllv => exact sllv _ _ _
  | srlv => exact srlv _ _ _
  | slt => exact slt _ _ _
  | mul => exact mul _ _ _
  | addi => exact addi _ _ _
  | andi => exact andi _ _ _
  | ori => exact ori _ _ _
  | xori => exact xori _ _ _
  | slti => exact slti _ _ _
  | sll => exact sll _ _ _
  | srl => exact srl _ _ _
  | lui => exact lui _ _
  | lb => exact lb _ _ _
  | lh => exact lh _ _ _
  | lw => exact lw _ _ _
  | sb => exact sb _ _ _
  | sh => exact sh _ _ _
  | sw => exact sw _ _ _
  | beq => exact beq _ _ _
  | bne => exact bne _ _ _
  | blez => exact blez _ _ _
  | bgtz => exact bgtz _ _ _
  | bltz => exact bltz _ _
  | bgez => exact bgez _ _
  | j => exact j _
  | jal => exact jal _
  | jr => exact jr _
  | systemcall => exact systemcall _

theorem exists_row_of_tag_ne_systemcall {t : Tag} (ht : t ≠ .systemcall) : ∃ r ∈ opcodeTable, r.tag = t := by
  revert ht
  cases t <;> decide

/-- The classifier gives an encoded instruction its own tag. -/
theorem tableTag_encode {i : Instr} (hi : i.wf = true) : tableTag (encode i) = i.tag := by
  by_cases htag : i.tag = .systemcall
  · cases i <;> cases htag
    exact isCatchAll_eq_true_iff.1 hi
  · obtain ⟨r, hr, hrow⟩ := exists_row_of_tag_ne_systemcall htag
    rw [← hrow, tableTag_eq_iff hr]
    exact encode_matches_row i hi r hr hrow

/-- The fields of an encoded instruction are its operands. -/
theorem assemble_encode (i : Instr) : assemble i.tag (encode i) = i := by
  cases i <;> simp [assemble, encode, Instr.tag]

/-- Settles O5: the encoded word has the instruction's tag, and its fields are the operands. -/
theorem decodeOfEncodeIsTheInstruction : Obligations.DecodeOfEncodeIsTheInstruction := by
  intro i hi
  rw [decode, classify_eq_tableTag, tableTag_encode hi, assemble_encode]

/-! ### Encoding a decoded word -/

theorem wf_assemble_of_ne_systemcall {t : Tag} (ht : t ≠ .systemcall) (w : Word) : (assemble t w).wf = true := by
  cases t
  case systemcall => exact absurd rfl ht
  all_goals rfl

/-- A word with the row's pattern is the encoding of the instruction that the row's tag assembles from it. -/
def EncodesBack (r : OpcodeRow) : Prop := ∀ w : Word, w &&& r.mask = r.value → encode (assemble r.tag w) = w

section
variable {t : Tag} {op f : BitVec 6} {i rt : BitVec 5}

theorem encodesBack_opLen11Row {len : BitVec 11}
    (h : ∀ w, encode (assemble t w) = encodeR op (fieldS w) (fieldT w) (fieldD w) i f) (hlen : len = i ++ f) :
    EncodesBack (opLen11Row t op len) := by
  intro w hw
  rw [opLen11Row, and_maskLen11, append_eq_append_iff, BitVec.append_left_inj, hlen, fieldLen11_eq,
    append_eq_append_iff] at hw
  obtain ⟨hop, hi, hf⟩ := hw
  rw [opLen11Row, h, ← hop, ← hi, ← hf, encodeR_fields]

theorem encodesBack_op11End6Row {s : BitVec 5} {op11 : BitVec 11}
    (h : ∀ w, encode (assemble t w) = encodeR op s (fieldT w) (fieldD w) (fieldI5 w) f) (hop11 : op11 = op ++ s) :
    EncodesBack (op11End6Row t op11 f) := by
  intro w hw
  rw [op11End6Row, and_maskOp11End6, append_eq_append_iff, BitVec.append_left_inj, hop11, fieldOp11_eq,
    append_eq_append_iff] at hw
  obtain ⟨⟨hop, hs⟩, hf⟩ := hw
  rw [op11End6Row, h, ← hop, ← hs, ← hf, encodeR_fields]

theorem encodesBack_opEnd21Row {d : BitVec 5} {e : BitVec 21}
    (h : ∀ w, encode (assemble t w) = encodeR op (fieldS w) rt d i f) (he : e = rt ++ d ++ i ++ f) :
    EncodesBack (opEnd21Row t op e) := by
  intro w hw
  rw [opEnd21Row, and_maskEnd21, append_eq_append_iff, BitVec.append_left_inj, he, fieldEnd21_eq,
    append_eq_append_iff, append_eq_append_iff, append_eq_append_iff] at hw
  obtain ⟨hop, ⟨⟨hrt, hd⟩, hi⟩, hf⟩ := hw
  rw [opEnd21Row, h, ← hop, ← hrt, ← hd, ← hi, ← hf, encodeR_fields]

theorem encodesBack_opRow_I (h : ∀ w, encode (assemble t w) = encodeI op (fieldS w) (fieldT w) (fieldI16 w)) :
    EncodesBack (opRow t op) := by
  intro w hw
  rw [opRow, and_maskOp, BitVec.append_left_inj] at hw
  rw [opRow, h, ← hw, encodeI_fields]

theorem encodesBack_opRow_J (h : ∀ w, encode (assemble t w) = encodeJ op (fieldX w)) : EncodesBack (opRow t op) := by
  intro w hw
  rw [opRow, and_maskOp, BitVec.append_left_inj] at hw
  rw [opRow, h, ← hw, encodeJ_fields]

theorem encodesBack_opTRow (h : ∀ w, encode (assemble t w) = encodeI op (fieldS w) rt (fieldI16 w)) :
    EncodesBack (opTRow t op rt) := by
  intro w hw
  rw [opTRow, and_maskOpT, BitVec.append_left_inj, append_eq_append_iff, BitVec.append_left_inj] at hw
  obtain ⟨hop, hrt⟩ := hw
  rw [opTRow, h, ← hop, ← hrt, encodeI_fields]

theorem encodesBack_op11Row {op11 : BitVec 11}
    (h : ∀ w, encode (assemble t w) = (op11 ++ fieldT w ++ fieldI16 w : Word)) : EncodesBack (op11Row t op11) := by
  intro w hw
  rw [op11Row, and_maskOp11, BitVec.append_left_inj] at hw
  rw [op11Row, h, ← hw, encodeLui_fields]

end

/-- Every row of the table fixes the bits that its tag's layout takes from no operand. -/
theorem encodesBack_of_mem : ∀ r ∈ opcodeTable, EncodesBack r := by
  rw [opcodeTable_eq_steps]
  simp only [List.forall_mem_append, step1Rows, step2Rows, step3Rows, step4Rows, step5Rows, step6Rows, step7Rows,
    step8Rows, List.forall_mem_cons, List.not_mem_nil, false_imp_iff, implies_true, and_true]
  refine ⟨?step1, ?step2, ?step3, ?step4, ?step5, ?step6, ⟨?beq, ?bne, ?blez, ?bgtz, ?bltz, ?bgez⟩, ?j, ?jal, ?jr⟩
  case step1 => and_intros <;> exact encodesBack_opLen11Row (fun _ => rfl) rfl
  case step2 => exact encodesBack_opLen11Row (fun _ => rfl) rfl
  case step4 => and_intros <;> exact encodesBack_op11End6Row (fun _ => rfl) rfl
  case step5 => exact encodesBack_op11Row fun _ => rfl
  case bltz | bgez => exact encodesBack_opTRow fun _ => rfl
  case j | jal => exact encodesBack_opRow_J fun _ => rfl
  case jr => exact encodesBack_opEnd21Row (fun _ => rfl) rfl
  -- steps 3 and 6 and the other branches: `op` alone, with the three operands of the I layout
  all_goals and_intros <;> exact encodesBack_opRow_I fun _ => rfl

/-- Settles O6: by the row the word matches, or as a catch-all word, which SYSTEMCALL carries whole. -/
theorem encodeOfDecodeIsTheWord : Obligations.EncodeOfDecodeIsTheWord := by
  intro w
  rw [decode, classify_eq_tableTag]
  rcases tableTag_cases w with ⟨r, hr, hw, htag⟩ | ⟨-, htag⟩ <;> rw [htag]
  · exact ⟨wf_assemble_of_ne_systemcall (tag_ne_systemcall r hr) w, encodesBack_of_mem r hr w hw⟩
  · exact ⟨isCatchAll_eq_true_iff.2 htag, rfl⟩

end Sys2Proof.Laws
end

section
/-! The invariant of 10_state.md and 20_memory.md (R21, R30), and the step of 40_execute_cycle.md (R98, R99) that keeps
it. The memory part follows from the fact that an activation's writes are one run of bytes, the register part from the
fact that an activation makes at most one register write. -/

namespace Sys2Proof.Machine

section
variable {i : Instr} {s t : State} {w : Word}

/-! ### What an activation can answer -/

/-- The next states of every instruction but SYSTEMCALL: after one register write, or after a store. An instruction that
writes no register counts as a write to register 0, which the hardwired port discards. -/
theorem next_cases_of_not_systemcall (hi : ∀ w, i ≠ .systemcall w) (h : exec i s = .next t) :
    (∃ d v pc', t = (s.setReg d v).complete pc' false) ∨ ∃ m, t = (s.setMem m).advance := by
  cases i
  case systemcall w => exact absurd rfl (hi w)
  case sb | sh | sw =>
    simp only [exec_sb, exec_sh, exec_sw] at h
    cases h
    exact .inr ⟨_, rfl⟩
  case beq | bne | blez | bgtz | bltz | bgez | j | jr =>
    cases h
    exact .inl ⟨0, 0, _, rfl⟩
  case jal =>
    cases h
    exact .inl ⟨regRa, s.pc + 4, _, rfl⟩
  -- the others write their register and advance
  all_goals
    cases h
    exact .inl ⟨_, _, s.pc + 4, rfl⟩

/-- The register file came about by at most one write through the register port. -/
def OneRegWrite (s t : State) : Prop := ∃ d v, t.regs = regWrite r0Hardwired s.regs d v

theorem oneRegWrite_of_regs_eq (h : t.regs = s.regs) : OneRegWrite s t := ⟨0, 0, h⟩

/-- Every service but selector 10 ends with the advance, after at most one register write. -/
theorem exists_oneRegWrite_advance_of_systemcall_next (h10 : s.reg regSel ≠ 10) (h : exec (.systemcall w) s = .next t) :
    ∃ u, t = u.advance ∧ u.pc = s.pc ∧ OneRegWrite s u := by
  rcases systemcall_next_cases h with ⟨-, rfl⟩ | ⟨-, n, -, -, -, rfl⟩ | ⟨-, n, rest, -, hval⟩ | ⟨-, -, rfl⟩ |
    ⟨-, -, rfl⟩ | ⟨hs, -⟩ | ⟨-, rfl⟩ | ⟨-, c, rest, -, rfl⟩ | ⟨-, -, rfl⟩ | ⟨-, rfl⟩
  · exact ⟨_, rfl, rfl, oneRegWrite_of_regs_eq rfl⟩
  · exact ⟨_, rfl, rfl, oneRegWrite_of_regs_eq rfl⟩
  · rcases hval with ⟨-, rfl⟩ | ⟨-, rfl⟩ | ⟨-, -, rfl⟩ <;> exact ⟨_, rfl, rfl, regRes, _, rfl⟩
  · exact ⟨_, rfl, rfl, regRes, _, rfl⟩
  · exact ⟨_, rfl, rfl, oneRegWrite_of_regs_eq rfl⟩
  · exact absurd hs h10
  · exact ⟨_, rfl, rfl, oneRegWrite_of_regs_eq rfl⟩
  · exact ⟨_, rfl, rfl, regRes, _, rfl⟩
  · exact ⟨_, rfl, rfl, regRes, _, rfl⟩
  · exact ⟨_, rfl, rfl, oneRegWrite_of_regs_eq rfl⟩

theorem oneRegWrite_of_systemcall_next (h : exec (.systemcall w) s = .next t) : OneRegWrite s t := by
  by_cases h10 : s.reg regSel = 10
  · cases (exec_systemcall_ten w h10).symm.trans h
    exact oneRegWrite_of_regs_eq rfl
  · obtain ⟨u, rfl, -, hu⟩ := exists_oneRegWrite_advance_of_systemcall_next h10 h
    exact hu

theorem oneRegWrite_of_next (h : exec i s = .next t) : OneRegWrite s t := by
  by_cases hi : ∃ w, i = .systemcall w
  · obtain ⟨w, rfl⟩ := hi
    exact oneRegWrite_of_systemcall_next h
  · rcases next_cases_of_not_systemcall (not_exists.1 hi) h with ⟨d, v, -, rfl⟩ | ⟨m, rfl⟩
    · exact ⟨d, v, rfl⟩
    · exact oneRegWrite_of_regs_eq rfl

theorem getElem_zero_regWrite_true (r : Vector Word 32) (d : RegIdx) (v : Word) : (regWrite true r d v)[0] = r[0] := by
  unfold regWrite
  split_ifs with hd
  · rfl
  · have hne : d.toNat ≠ 0 := fun h => hd ⟨rfl, BitVec.eq_of_toNat_eq h⟩
    exact Vector.getElem_set_ne _ _ hne

/-! ### The invariant -/

theorem State.inv_iff : s.inv = true ↔ s.mem.wf = true ∧ s.regs[0] = 0 := by simp [State.inv, r0Hardwired]

theorem wf_mem_of_next (hs : s.mem.wf = true) (h : exec i s = .next t) : t.mem.wf = true := by
  obtain ⟨a, bs, hbs⟩ := exists_accessesListedBytes h
  rw [hbs.mem_eq h]
  exact Memory.wf_writeList a bs hs

theorem getElem_zero_regs_of_next (h : exec i s = .next t) : t.regs[0] = s.regs[0] := by
  obtain ⟨d, v, hregs⟩ := oneRegWrite_of_next h
  simp only [hregs]
  exact getElem_zero_regWrite_true s.regs d v

theorem inv_of_exec_next (hs : s.inv = true) (h : exec i s = .next t) : t.inv = true := by
  rw [State.inv_iff] at hs ⊢
  exact ⟨wf_mem_of_next hs.1 h, (getElem_zero_regs_of_next h).trans hs.2⟩

/-! ### The step -/

theorem step_of_halted (h : s.halted = true) : step s = .refused .runEnded := if_pos h

theorem step_of_not_halted (h : s.halted = false) :
    step s = exec (decode (wordOfBytes (s.byte s.pc) (s.byte (s.pc + 1)) (s.byte (s.pc + 2)) (s.byte (s.pc + 3)))) s := by
  rw [step, if_neg (by simp [h]), fetchWord_eq]

theorem exists_exec_of_step_next (h : step s = .next t) : ∃ i, exec i s = .next t := by
  cases hs : s.halted with
  | true =>
    rw [step_of_halted hs] at h
    cases h
  | false => exact ⟨_, (step_of_not_halted hs).symm.trans h⟩

end

/-- Settles O47: a step that answers a next state is an activation, and every activation keeps both halves. -/
theorem stepKeepsTheMachineInvariant : Obligations.StepKeepsTheMachineInvariant := by
  intro s t hs h
  obtain ⟨i, hi⟩ := exists_exec_of_step_next h
  exact inv_of_exec_next hs hi

/-- Settles O8: the fetch of a state that has not halted never faults. -/
theorem stepRunsTheDecodedWord : Obligations.StepRunsTheDecodedWord := fun _ => step_of_not_halted

/-- Settles O10: the test of `halted` comes before the fetch. -/
theorem stepAfterTheHaltIsRefused : Obligations.StepAfterTheHaltIsRefused := fun _ => step_of_halted

/-! ### A word placed at the program counter -/

theorem tableWord_toNat (w : Word) : tableWord 32 w.toNat = w := by
  simp [tableWord, Nat.mod_eq_of_lt w.isLt]

theorem withFetchWord_toNat (s : State) (w : Word) :
    s.withFetchWord 32 w.toNat = { s.placeWord s.pc w with halted := false } := by
  rw [State.withFetchWord, tableWord_toNat]

theorem byte_withFetchWord {s : State} (w a : Word) (h : s.mem.wf = true) :
    (s.withFetchWord 32 w.toNat).byte a = if (a - s.pc).toNat < 4 then wordByte w (a - s.pc).toNat else s.byte a := by
  rw [withFetchWord_toNat]
  exact byte_placeWord s.pc w a h

theorem wordOfBytes_withFetchWord {s : State} (w : Word) (h : s.mem.wf = true) :
    wordOfBytes ((s.withFetchWord 32 w.toNat).byte s.pc) ((s.withFetchWord 32 w.toNat).byte (s.pc + 1))
      ((s.withFetchWord 32 w.toNat).byte (s.pc + 2)) ((s.withFetchWord 32 w.toNat).byte (s.pc + 3)) = w := by
  simp [byte_withFetchWord w _ h, wordOfBytes_wordByte]

/-- Settles O9: the four bytes at `pc` are those of the word, and nothing else was touched. -/
theorem stepRunsThePlacedWord : Obligations.StepRunsThePlacedWord := by
  intro s w h
  refine ⟨?_, rfl, fun _ => rfl, ⟨rfl, rfl, rfl⟩, fun a ha => ?_⟩
  · calc step (s.withFetchWord 32 w.toNat)
        = exec (decode (wordOfBytes ((s.withFetchWord 32 w.toNat).byte s.pc)
            ((s.withFetchWord 32 w.toNat).byte (s.pc + 1)) ((s.withFetchWord 32 w.toNat).byte (s.pc + 2))
            ((s.withFetchWord 32 w.toNat).byte (s.pc + 3)))) (s.withFetchWord 32 w.toNat) := step_of_not_halted rfl
      _ = exec (decode w) (s.withFetchWord 32 w.toNat) := by rw [wordOfBytes_withFetchWord w h]
  · rw [byte_withFetchWord w a h]
    exact if_neg ha

/-! ### Register 0 and the parameters -/

theorem State.reg_zero (s : State) : s.reg 0 = 0 := by simp [State.reg, regRead, r0Hardwired]

/-- Settles O12: a hardwired register 0 reads zero whatever the register file holds. -/
theorem registerZeroReadsZero : Obligations.RegisterZeroReadsZero := fun s =>
  ⟨s.reg_zero, fun _ t _ => t.reg_zero⟩

/-- Settles O13: each parameter is defined as its value. -/
theorem parametersHaveTheSpecsValues : Obligations.ParametersHaveTheSpecsValues :=
  ⟨rfl, rfl, rfl, rfl, rfl, rfl, rfl, fun _ => rfl, rfl, rfl, rfl⟩

/-! ### The byte port under any `MemValid` (U3) -/

/-- A run of byte writes that begins with valid addresses writes their bytes first. -/
theorem storeBytes_of_valid_prefix {valid : Word → Bool} {k : Nat} {a : Word} {bs : List Byte} (s : State)
    (hvalid : ∀ j < k, valid (a + BitVec.ofNat 32 j) = true) (hk : k ≤ bs.length) :
    storeBytes valid s a bs =
      storeBytes valid (s.setMem (s.mem.writeList a (bs.take k))) (a + BitVec.ofNat 32 k) (bs.drop k) := by
  induction k generalizing s a bs with
  | zero => simp [Memory.writeList, setMem_self]
  | succ k ih =>
    cases bs with
    | nil => simp at hk
    | cons b bs =>
      have h0 : valid a = true := by simpa using hvalid 0 (by omega)
      have hrest : ∀ j < k, valid (a + 1 + BitVec.ofNat 32 j) = true := fun j hj => by
        rw [← word_add_ofNat_succ]
        exact hvalid (j + 1) (by omega)
      rw [word_add_ofNat_succ]
      simp only [storeBytes, setByte, if_pos h0, List.take_succ_cons, List.drop_succ_cons, Memory.writeList]
      exact ih _ hrest (by simpa using hk)

theorem storeBytes_cons_of_invalid {valid : Word → Bool} {a : Word} (h : valid a = false) (s : State) (b : Byte)
    (bs : List Byte) : storeBytes valid s a (b :: bs) = .error (.invalidAddress a s) := by
  simp [storeBytes, setByte, h]

theorem memRead4_of_first_invalid {valid : Word → Bool} {k : Nat} {a : Word} (s : State)
    (hvalid : ∀ j < k, valid (a + BitVec.ofNat 32 j) = true) (hk : valid (a + BitVec.ofNat 32 k) = false) (h4 : k < 4) :
    memRead4 valid s a = .error (.invalidAddress (a + BitVec.ofNat 32 k) s) := by
  have hok : ∀ j < k, getByte valid s (a + BitVec.ofNat 32 j) = .ok (s.byte (a + BitVec.ofNat 32 j)) :=
    fun j hj => if_pos (hvalid j hj)
  have hfirst : 0 < k → getByte valid s a = .ok (s.byte a) := by simpa using hok 0
  have herr : getByte valid s (a + BitVec.ofNat 32 k) = .error (.invalidAddress (a + BitVec.ofNat 32 k) s) :=
    if_neg (by simp [hk])
  clear hvalid hk
  -- the bytes before the `k`-th are read, and its fault ends the composition
  interval_cases k <;> simp_all [memRead4, bind, Except.bind]

/-- Settles O15: the bytes before the first invalid address are written (a store) or only read (a load). -/
theorem invalidAddressFaultsWithLowerBytesWritten : Obligations.InvalidAddressFaultsWithLowerBytesWritten := by
  intro valid s a k hvalid hk
  refine ⟨fun bs hbs => ?_, memRead4_of_first_invalid s hvalid hk⟩
  rw [storeBytes_of_valid_prefix s hvalid hbs.le, List.drop_eq_getElem_cons hbs]
  exact storeBytes_cons_of_invalid hk _ _ _

/-! ### Canonical memories -/

theorem Memory.read_cons_self (a : Nat) (b : Byte) (m : Memory) : Memory.read ((a, b) :: m) a = b := if_pos rfl

theorem Memory.read_cons_of_ne {a x : Nat} (h : x ≠ a) (b : Byte) (m : Memory) :
    Memory.read ((a, b) :: m) x = m.read x := if_neg h

/-- A canonical memory does not begin above an address at which the other one with the same bytes begins. -/
theorem Memory.head_le_of_read_eq {lo a a' : Nat} {b b' : Byte} {m m' : Memory}
    (h : Memory.wfFrom lo ((a, b) :: m) = true) (h' : Memory.wfFrom lo ((a', b') :: m') = true)
    (hread : Memory.read ((a, b) :: m) a = Memory.read ((a', b') :: m') a) : a' ≤ a := by
  obtain ⟨-, -, hb, -⟩ := Memory.wfFrom_cons.1 h
  obtain ⟨-, ha', hb', hm'⟩ := Memory.wfFrom_cons.1 h'
  by_contra hlt
  have hfrom : Memory.wfFrom a' ((a', b') :: m') = true := Memory.wfFrom_cons.2 ⟨le_rfl, ha', hb', hm'⟩
  rw [Memory.read_cons_self, Memory.read_of_lt hfrom (by omega)] at hread
  exact hb hread

theorem Memory.eq_of_read_eq {lo : Nat} {m m' : Memory} (h : Memory.wfFrom lo m = true)
    (h' : Memory.wfFrom lo m' = true) (hread : ∀ a < addressCount, m.read a = m'.read a) : m = m' := by
  induction m generalizing lo m' with
  | nil =>
    cases m' with
    | nil => rfl
    | cons c m' =>
      obtain ⟨a', b'⟩ := c
      obtain ⟨-, ha', hb', -⟩ := Memory.wfFrom_cons.1 h'
      exact absurd ((hread a' ha').trans (Memory.read_cons_self a' b' m')).symm hb'
  | cons c m ih =>
    obtain ⟨a, b⟩ := c
    obtain ⟨-, ha, hb, hm⟩ := Memory.wfFrom_cons.1 h
    cases m' with
    | nil => exact absurd ((Memory.read_cons_self a b m).symm.trans (hread a ha)) hb
    | cons c m' =>
      obtain ⟨a', b'⟩ := c
      obtain ⟨-, ha', -, hm'⟩ := Memory.wfFrom_cons.1 h'
      obtain rfl : a = a' := le_antisymm (Memory.head_le_of_read_eq h' h (hread a' ha').symm)
        (Memory.head_le_of_read_eq h h' (hread a ha))
      obtain rfl : b = b' := by simpa only [Memory.read_cons_self] using hread a ha
      have htail : m = m' := ih hm hm' fun x hx => by
        by_cases hxa : x = a
        · rw [hxa, Memory.read_of_lt hm (Nat.lt_succ_self a), Memory.read_of_lt hm' (Nat.lt_succ_self a)]
        · simpa only [Memory.read_cons_of_ne hxa] using hread x hx
      rw [htail]

/-- Settles O16: by induction on the first list, whose head is the lowest address with a byte other than the unlisted
one. -/
theorem canonicalMemoriesAreDeterminedByTheirBytes : Obligations.CanonicalMemoriesAreDeterminedByTheirBytes := by
  intro m m' h h' hread
  refine Memory.eq_of_read_eq h h' fun a ha => ?_
  simpa [Nat.mod_eq_of_lt (show a < 4294967296 from ha)] using hread (BitVec.ofNat 32 a)

end Sys2Proof.Machine
end

section
/-! The family 45_load_store.md: the effective address (R140), the loads (R141 to R143), the stores (R144 to R146) and a
store followed by the load of its width (R147). A load is a register write of composed bytes; a store is the write of the
low bytes of a word, and one law says what each byte is after it. -/

namespace Sys2Proof.Machine

/-! ### The effective address and the loads -/

/-- Settles O24: sign extension is the signed value modulo 2^32. -/
theorem effectiveAddressIsBasePlusSignedOffset : Obligations.EffectiveAddressIsBasePlusSignedOffset := by
  intro s rb off
  simp [effAddr, sext32_eq_ofInt, BitVec.ofInt_add]

theorem halfOfBytes_eq_ofNat (b0 b1 : Byte) : halfOfBytes b0 b1 = BitVec.ofNat 16 (b0.toNat + 2 ^ 8 * b1.toNat) := by
  rw [← halfOfBytes_toNat, BitVec.ofNat_toNat, BitVec.setWidth_eq]

theorem wordOfBytes_eq_ofNat (b0 b1 b2 b3 : Byte) :
    wordOfBytes b0 b1 b2 b3 =
      BitVec.ofNat 32 (b0.toNat + 2 ^ 8 * b1.toNat + 2 ^ 16 * b2.toNat + 2 ^ 24 * b3.toNat) := by
  rw [← wordOfBytes_toNat, BitVec.ofNat_toNat, BitVec.setWidth_eq]

/-- Settles O25: the loads as register writes, their values as numbers. -/
theorem loadResults : Obligations.LoadResults := by
  intro s rt rb off
  refine ⟨?_, ?_, ?_⟩
  · rw [← sext32_eq_ofInt]
    exact writesRegister_of_exec_eq (exec_lb_eq_writeAndAdvance rt rb off s)
  · rw [← halfOfBytes_eq_ofNat, ← sext32_eq_ofInt]
    exact writesRegister_of_exec_eq (exec_lh_eq_writeAndAdvance rt rb off s)
  · rw [← wordOfBytes_eq_ofNat]
    exact writesRegister_of_exec_eq (exec_lw_eq_writeAndAdvance rt rb off s)

/-! ### The stores -/

/-- Every byte of memory after a run of at most 2^32 writes. -/
theorem Memory.read_writeList {m : Memory} (a x : Word) (bs : List Byte) (hm : m.wf = true)
    (hlen : bs.length ≤ 2 ^ 32) :
    (m.writeList a bs).read x.toNat =
      if (x - a).toNat < bs.length then bs.getD (x - a).toNat 0 else m.read x.toNat := by
  split_ifs with hx
  · rw [Memory.read_writeList_inside a x bs hm hlen hx, List.getD_eq_getElem bs 0 hx]
  · exact Memory.read_writeList_outside m a x bs (Nat.le_of_not_lt hx)

/-- The state after a store of the low `n` bytes of `v` from `a` on. -/
def State.stored (s : State) (a : Word) (n : Nat) (v : Word) : State :=
  (s.setMem (s.mem.writeList a (leBytes n v))).advance

section
variable {s : State} {n : Nat}

theorem byte_stored (hm : s.mem.wf = true) (hn : n ≤ 4) (a v x : Word) :
    (s.stored a n v).byte x = if (x - a).toNat < n then wordByte v (x - a).toNat else s.byte x := by
  rw [State.stored, State.byte_advance, State.byte_setMem, Memory.read_writeList a x _ hm (by simp; omega),
    length_leBytes]
  split_ifs with hx
  · rw [List.getD_eq_getElem _ _ (by simpa using hx), getElem_leBytes]
  · rfl

theorem storesBytes_of_exec_eq {i : Instr} {a v : Word} (hm : s.mem.wf = true) (hn : n ≤ 4)
    (h : exec i s = .next (s.stored a n v)) : StoresBytes i s a n v :=
  ⟨_, h, byte_stored hm hn a v, rfl, rfl, fun _ => rfl, rfl, rfl, rfl⟩

end

/-- Settles O26: each store is a run of the low bytes of the register. -/
theorem storeResults : Obligations.StoreResults := fun s rt rb off hm =>
  ⟨storesBytes_of_exec_eq hm (by decide) (exec_sb rt rb off s),
    storesBytes_of_exec_eq hm (by decide) (exec_sh rt rb off s),
    storesBytes_of_exec_eq hm (by decide) (exec_sw rt rb off s)⟩

/-! ### A store and then the load of its width -/

@[simp] theorem effAddr_stored (s : State) (a v : Word) (n : Nat) (rb : RegIdx) (off : Half) :
    effAddr (s.stored a n v) rb off = effAddr s rb off := rfl

/-- Settles O27: the bytes the load composes are those the store took the value apart into. -/
theorem storeThenLoadGivesTheValueBack : Obligations.StoreThenLoadGivesTheValueBack := by
  intro s rt rd rb off hm
  refine ⟨⟨s.stored _ 4 _, exec_sw rt rb off s, ?_⟩, ⟨s.stored _ 2 _, exec_sh rt rb off s, ?_⟩,
    ⟨s.stored _ 1 _, exec_sb rt rb off s, ?_⟩⟩
  · refine writesRegister_of_exec_eq ((exec_lw_eq_writeAndAdvance rd rb off _).trans (congrArg _ ?_))
    simp [byte_stored hm, wordOfBytes_wordByte]
  · refine writesRegister_of_exec_eq ((exec_lh_eq_writeAndAdvance rd rb off _).trans (congrArg _ ?_))
    simp [byte_stored hm, halfOfBytes_wordByte, sext32_eq_ofInt]
  · refine writesRegister_of_exec_eq ((exec_lb_eq_writeAndAdvance rd rb off _).trans (congrArg _ ?_))
    simp [byte_stored hm, wordByte_zero, sext32_eq_ofInt]

end Sys2Proof.Machine
end

section
/-! The families 41_arithmetic.md to 44_immediate.md: the results of the register-writing instructions (R103 to R105, R110
to R112, R121 to R124, R130 to R135). Each meaning is one register write, so what is left is that the written word is the
spec's number. -/

namespace Sys2Proof.Machine

/-! ### MUL, SUB, SLT -/

theorem ofNat_toNat_mul_toNat (a b : Word) : BitVec.ofNat 32 (a.toNat * b.toNat) = a * b := by
  rw [BitVec.ofNat_mul, BitVec.ofNat_toNat, BitVec.ofNat_toNat, BitVec.setWidth_eq, BitVec.setWidth_eq]

theorem ofInt_toInt_mul_toInt (a b : Word) : BitVec.ofInt 32 (a.toInt * b.toInt) = a * b := by
  rw [BitVec.ofInt_mul, BitVec.ofInt_toInt, BitVec.ofInt_toInt]

theorem ofInt_toInt_sub_toInt (a b : Word) : BitVec.ofInt 32 (a.toInt - b.toInt) = a - b := by
  rw [Int.sub_eq_add_neg, BitVec.ofInt_add, BitVec.ofInt_neg, BitVec.ofInt_toInt, BitVec.ofInt_toInt,
    ← BitVec.sub_eq_add_neg]

theorem truthWord_ltS (a b : Word) : truthWord (ltS a b) = if a.toInt < b.toInt then 1 else 0 := by simp [truthWord]

/-- Settles O18: MUL's row of the table, and the product of words as the product of their numbers, of either sign. -/
theorem mulWritesTheLowProduct : Obligations.MulWritesTheLowProduct := by
  have hmul : DecodesAs 0xFC0007FF 0x70000002 (assemble .mul) :=
    decodesAs_of_mem (r := ⟨.mul, 0xFC0007FF, 0x70000002⟩) (by decide)
  refine ⟨hmul, fun s rd rs rt => ⟨?_, ?_, ?_⟩⟩
  · calc decode (wordR 0x70000002 rs rt rd)
        = assemble .mul (encodeR 0x1C rs rt rd 0 0x02) := decode_wordR_of_decodesAs (by decide) hmul rs rt rd
      _ = .mul rd rs rt := Laws.assemble_encode (.mul rd rs rt)
  · rw [ofNat_toNat_mul_toNat]
    exact writesRegister_of_exec_eq rfl
  · rw [ofInt_toInt_mul_toInt]
    exact writesRegister_of_exec_eq rfl

/-- Settles O19: the difference and the comparison of words as those of their signed numbers. -/
theorem subAndSltResults : Obligations.SubAndSltResults := by
  intro s rd rs rt
  rw [ofInt_toInt_sub_toInt, ← truthWord_ltS]
  exact ⟨writesRegister_of_exec_eq rfl, writesRegister_of_exec_eq rfl⟩

/-! ### AND, OR, XOR -/

/-- Settles O20: the bits of the word operations. -/
theorem bitwiseResults : Obligations.BitwiseResults := fun _ _ _ _ =>
  ⟨⟨_, writesRegister_of_exec_eq rfl, fun _ _ => BitVec.getLsbD_and⟩,
    ⟨_, writesRegister_of_exec_eq rfl, fun _ _ => BitVec.getLsbD_or⟩,
    ⟨_, writesRegister_of_exec_eq rfl, fun _ _ => BitVec.getLsbD_xor⟩⟩

/-! ### Shifts -/

theorem shiftLeft_eq_ofNat (v : Word) (n : Nat) : v <<< n = BitVec.ofNat 32 (v.toNat * 2 ^ n) := by
  apply BitVec.eq_of_toNat_eq
  rw [BitVec.toNat_shiftLeft, BitVec.toNat_ofNat, Nat.shiftLeft_eq]

theorem ushiftRight_eq_ofNat (v : Word) (n : Nat) : v >>> n = BitVec.ofNat 32 (v.toNat / 2 ^ n) := by
  rw [← Nat.shiftRight_eq_div_pow, ← BitVec.toNat_ushiftRight, BitVec.ofNat_toNat, BitVec.setWidth_eq]

/-- Settles O21: a shift is a product or a quotient by a power of two. -/
theorem shiftResults : Obligations.ShiftResults := by
  intro s rd rt rs sa
  simp only [← shiftLeft_eq_ofNat, ← ushiftRight_eq_ofNat, ← shiftAmount_eq_mod]
  exact ⟨writesRegister_of_exec_eq rfl, writesRegister_of_exec_eq rfl, writesRegister_of_exec_eq rfl,
    writesRegister_of_exec_eq rfl⟩

/-! ### Immediates -/

theorem add_sext32_eq_ofInt (a : Word) (imm : Half) : a + sext32 imm = BitVec.ofInt 32 (a.toInt + imm.toInt) := by
  rw [BitVec.ofInt_add, BitVec.ofInt_toInt, sext32_eq_ofInt]

theorem upperHalf_eq_ofNat (imm : Half) : upperHalf imm = BitVec.ofNat 32 (imm.toNat * 65536) := by
  rw [← upperHalf_toNat, BitVec.ofNat_toNat, BitVec.setWidth_eq]

/-- Settles O22: SLTI compares with the immediate's signed value, which sign extension keeps. -/
theorem addiSltiLuiResults : Obligations.AddiSltiLuiResults := by
  intro s rt rs imm
  rw [← add_sext32_eq_ofInt, ← upperHalf_eq_ofNat, ← sext32_toInt imm (by decide), ← truthWord_ltS]
  exact ⟨writesRegister_of_exec_eq rfl, writesRegister_of_exec_eq rfl, writesRegister_of_exec_eq rfl⟩

theorem ext32_eq_widened (m : ExtMode) (imm : Half) : ext32 m imm = widened m imm := by
  cases m with
  | zext => exact zext32_eq_ofNat imm
  | sext => exact sext32_eq_ofInt imm

theorem widened_of_bit_15_clear (m : ExtMode) {imm : Half} (h : imm.getLsbD 15 = false) :
    widened m imm = BitVec.ofNat 32 imm.toNat :=
  (ext32_eq_widened m imm).symm.trans (ext32_of_msb_false m imm h)

/-- Settles O23: the widening is the parameter's, and bit 15 is the only bit it looks at. -/
theorem logicalImmediateResults : Obligations.LogicalImmediateResults := by
  intro s rt rs imm
  have handi : WritesRegister (.andi rt rs imm) s rt (s.reg rs &&& widened extAndi imm) :=
    writesRegister_of_exec_eq (by rw [← ext32_eq_widened]; rfl)
  have hori : WritesRegister (.ori rt rs imm) s rt (s.reg rs ||| widened extOri imm) :=
    writesRegister_of_exec_eq (by rw [← ext32_eq_widened]; rfl)
  have hxori : WritesRegister (.xori rt rs imm) s rt (s.reg rs ^^^ widened extXori imm) :=
    writesRegister_of_exec_eq (by rw [← ext32_eq_widened]; rfl)
  refine ⟨handi, hori, hxori, fun h => ?_⟩
  rw [widened_of_bit_15_clear _ h] at handi hori hxori
  exact ⟨handi, hori, hxori⟩

end Sys2Proof.Machine
end

section
/-! The families 46_branch.md and 47_jump.md, and the next program counter of 10_state.md: the branches (R160 to R166), JAL
(R172), the table of R25 and its alignment (R26), which is read off the table. -/

namespace Sys2Proof.Machine

section
variable {i : Instr} {s t : State}

/-- A meaning that is `branchIf` goes where its comparison says. -/
theorem goesTo_branchNext_of_exec_eq {c : Bool} {p : Prop} [Decidable p] {imm : Half} (hc : c = true ↔ p)
    (h : exec i s = branchIf s c imm) : GoesTo i s (branchNext s.pc p imm) := by
  refine goesTo_of_exec_eq (h.trans ?_)
  simp only [branchIf, branchNext, hc, branchTarget_eq_ofInt]

/-- Settles O28: each comparison of the model is the spec's. -/
theorem branchResults : Obligations.BranchResults := by
  intro s rs rt imm
  exact ⟨goesTo_branchNext_of_exec_eq beq_iff_eq rfl, goesTo_branchNext_of_exec_eq bne_iff_ne rfl,
    goesTo_branchNext_of_exec_eq (leZero_eq_true _) rfl, goesTo_branchNext_of_exec_eq (gtZero_eq_true _) rfl,
    goesTo_branchNext_of_exec_eq (ltZero_eq_true _) rfl, goesTo_branchNext_of_exec_eq (geZero_eq_true _) rfl⟩

/-- Settles O30: the link is the one register write, by the read-after-write law of the port. -/
theorem jumpAndLinkSavesTheNextAddress : Obligations.JumpAndLinkSavesTheNextAddress := fun s x =>
  ⟨(s.setReg regRa (s.pc + 4)).complete (jumpTarget s.pc x) false, rfl,
    fun r => State.reg_setReg s regRa r (s.pc + 4), jumpTarget_eq_append s.pc x, rfl, fun _ => rfl, rfl, rfl, rfl⟩

/-! ### The next program counter -/

theorem GoesTo.pc_eq {target : Word} (hi : GoesTo i s target) (h : exec i s = .next t) : t.pc = target := by
  obtain ⟨t', h', hpc, -⟩ := hi
  cases h'.symm.trans h
  exact hpc

/-- Every service but selector 10 advances (R97, R189). -/
theorem pc_eq_nextPc_of_systemcall_next {w : Word} (h : exec (.systemcall w) s = .next t) :
    t.pc = nextPc (.systemcall w) s := by
  by_cases h10 : s.reg regSel = 10
  · cases (exec_systemcall_ten w h10).symm.trans h
    exact (if_pos h10).symm
  · obtain ⟨u, rfl, hpc, -⟩ := exists_oneRegWrite_advance_of_systemcall_next h10 h
    rw [State.advance_pc, hpc]
    exact (if_neg h10).symm

end

/-- Settles O31: by the class of the tag. -/
theorem nextPcIsTheSpecsTable : Obligations.NextPcIsTheSpecsTable := by
  intro i s t h
  cases i
  case beq => exact (goesTo_branchNext_of_exec_eq beq_iff_eq rfl).pc_eq h
  case bne => exact (goesTo_branchNext_of_exec_eq bne_iff_ne rfl).pc_eq h
  case blez => exact (goesTo_branchNext_of_exec_eq (leZero_eq_true _) rfl).pc_eq h
  case bgtz => exact (goesTo_branchNext_of_exec_eq (gtZero_eq_true _) rfl).pc_eq h
  case bltz => exact (goesTo_branchNext_of_exec_eq (ltZero_eq_true _) rfl).pc_eq h
  case bgez => exact (goesTo_branchNext_of_exec_eq (geZero_eq_true _) rfl).pc_eq h
  case j x | jal x =>
    cases h
    exact jumpTarget_eq_append s.pc x
  case sb | sh | sw =>
    simp only [exec_sb, exec_sh, exec_sw] at h
    cases h
    rfl
  case systemcall w => exact pc_eq_nextPc_of_systemcall_next h
  -- JR, and the register writes, which advance
  all_goals
    cases h
    rfl

/-! ### Its alignment -/

theorem toNat_add_four_mod_four (pc : Word) : (pc + 4).toNat % 4 = pc.toNat % 4 := by
  rw [BitVec.toNat_add, show (4 : Word).toNat = 4 from rfl]
  omega

theorem toNat_branchNext_mod_four (pc : Word) (p : Prop) [Decidable p] (imm : Half) :
    (branchNext pc p imm).toNat % 4 = pc.toNat % 4 := by
  unfold branchNext
  split_ifs
  · rw [BitVec.toNat_ofInt]
    omega
  · exact toNat_add_four_mod_four pc

theorem toNat_append_zeros_mod_four (v : BitVec 30) : (v ++ 0#2 : Word).toNat % 4 = 0 := by
  rw [BitVec.toNat_append, Nat.shiftLeft_eq]
  simp

/-- Every class of the table but the jumps keeps the alignment. -/
theorem toNat_nextPc_mod_four {i : Instr} (s : State) (hj : i.tag ≠ .j) (hjal : i.tag ≠ .jal) (hjr : i.tag ≠ .jr) :
    (nextPc i s).toNat % 4 = s.pc.toNat % 4 := by
  cases i
  case j => exact absurd rfl hj
  case jal => exact absurd rfl hjal
  case jr => exact absurd rfl hjr
  case beq | bne | blez | bgtz | bltz | bgez => exact toNat_branchNext_mod_four _ _ _
  case systemcall =>
    simp only [nextPc]
    split_ifs
    · rfl
    · exact toNat_add_four_mod_four s.pc
  all_goals exact toNat_add_four_mod_four s.pc

/-- Settles O32: the table's entries modulo 4. -/
theorem programCounterAlignment : Obligations.ProgramCounterAlignment := by
  intro i s t h
  rw [nextPcIsTheSpecsTable i s t h]
  refine ⟨toNat_nextPc_mod_four s, fun htag => ?_, ?_⟩
  · cases i <;> simp only [Instr.tag, reduceCtorEq, or_self] at htag
    case j | jal => exact toNat_append_zeros_mod_four _
  · rintro rs rfl
    rfl

end Sys2Proof.Machine
end

section
/-! The family 48_syscall.md: the services that print (R181, R182, R187) and read (R184, R185, R188), the selectors without
one (R189), and what they all do to the console streams (R31). The selector picks the service; what a service's loop
answers is a law of the console, so what is left is to read the spec's bytes off the answer. -/

namespace Sys2Proof.Machine

/-! ### The selectors without a service -/

/-- Settles O34: no comparison of the selector holds. -/
theorem selectorWithoutServiceOnlyAdvances : Obligations.SelectorWithoutServiceOnlyAdvances := by
  intro w s h
  simp only [List.mem_cons, List.not_mem_nil, or_false, not_or] at h
  obtain ⟨h1, h4, h5, h8, h10, h11, h12⟩ := h
  refine goesTo_of_exec_eq ((exec_systemcall_of_selector w s _ rfl).trans ?_)
  rw [if_neg h1, if_neg h4, if_neg h5, if_neg h8, if_neg h10, if_neg h11, if_neg h12]
  rfl

/-! ### Selector 1: the decimal numeral -/

theorem digitsValue_append_singleton (ds : List Byte) (d : Byte) :
    digitsValue (ds ++ [d]) = 10 * digitsValue ds + (d.toNat - 0x30) := by
  simp [digitsValue, List.foldl_append]

theorem toNat_digit {n : Nat} (h : n < 10) : (BitVec.ofNat 8 (0x30 + n)).toNat = 0x30 + n := by
  rw [BitVec.toNat_ofNat, Nat.mod_eq_of_lt (by omega)]

theorem decimalDigits_of_lt {k n : Nat} (h : n < 10) : decimalDigits (k + 1) n = [BitVec.ofNat 8 (0x30 + n)] :=
  if_pos h

theorem decimalDigits_of_ge {k n : Nat} (h : ¬ n < 10) :
    decimalDigits (k + 1) n = decimalDigits k (n / 10) ++ [BitVec.ofNat 8 (0x30 + n % 10)] := if_neg h

theorem digitsValue_decimalDigits {k n : Nat} (h : n < 10 ^ k) : digitsValue (decimalDigits k n) = n := by
  induction k generalizing n with
  | zero =>
    obtain rfl : n = 0 := by simpa using h
    rfl
  | succ k ih =>
    by_cases hn : n < 10
    · rw [decimalDigits_of_lt hn, ← List.nil_append [_], digitsValue_append_singleton, toNat_digit hn]
      simp [digitsValue]
    · have hdiv : n / 10 < 10 ^ k := Nat.div_lt_of_lt_mul (by rwa [pow_succ'] at h)
      rw [decimalDigits_of_ge hn, digitsValue_append_singleton, ih hdiv, toNat_digit (Nat.mod_lt n (by decide))]
      omega

theorem isDigit_of_mem_decimalDigits {k n : Nat} {d : Byte} (h : d ∈ decimalDigits k n) :
    0x30 ≤ d.toNat ∧ d.toNat ≤ 0x39 := by
  have hdigit : ∀ m < 10, d = BitVec.ofNat 8 (0x30 + m) → 0x30 ≤ d.toNat ∧ d.toNat ≤ 0x39 := fun m hm hd => by
    rw [hd, toNat_digit hm]
    omega
  induction k generalizing n with
  | zero => cases h
  | succ k ih =>
    by_cases hn : n < 10
    · rw [decimalDigits_of_lt hn, List.mem_singleton] at h
      exact hdigit n hn h
    · rw [decimalDigits_of_ge hn, List.mem_append, List.mem_singleton] at h
      rcases h with hmem | hlast
      · exact ih hmem
      · exact hdigit _ (Nat.mod_lt n (by decide)) hlast

theorem decimalDigits_ne_nil (k n : Nat) : decimalDigits (k + 1) n ≠ [] := by
  by_cases hn : n < 10
  · simp [decimalDigits_of_lt hn]
  · simp [decimalDigits_of_ge hn]

/-- The numeral is the shortest: only that of zero begins with a zero. -/
theorem head?_decimalDigits_ne_zero {k n : Nat} (hk : n < 10 ^ k) (hpos : 0 < n) :
    (decimalDigits k n).head? ≠ some 0x30 := by
  induction k generalizing n with
  | zero => nofun
  | succ k ih =>
    by_cases hn : n < 10
    · rw [decimalDigits_of_lt hn, List.head?_singleton]
      intro hhead
      have hvalue := congrArg BitVec.toNat (Option.some.inj hhead)
      rw [toNat_digit hn, show (0x30 : Byte).toNat = 0x30 from rfl] at hvalue
      omega
    · have hdiv : n / 10 < 10 ^ k := Nat.div_lt_of_lt_mul (by rwa [pow_succ'] at hk)
      have hhead := ih hdiv (by omega)
      have hne : decimalDigits k (n / 10) ≠ [] := fun hnil => by
        have hvalue := digitsValue_decimalDigits hdiv
        rw [hnil, show digitsValue [] = 0 from rfl] at hvalue
        omega
      rwa [decimalDigits_of_ge hn, List.head?_append_of_ne_nil _ hne]

theorem decimal_eq_sign_append (n : Int) :
    decimal n = (if n < 0 then [0x2D] else []) ++ decimalDigits 10 n.natAbs := by
  unfold decimal
  split_ifs <;> rfl

theorem natAbs_toInt_lt (v : Word) : v.toInt.natAbs < 10 ^ 10 := by
  have hlo := BitVec.le_toInt v
  have hhi := BitVec.toInt_lt (x := v)
  omega

/-- Settles O35: `Decimal` spells the magnitude in the shortest way, and ten digits hold it. -/
theorem printIntegerAppendsTheShortestNumeral : Obligations.PrintIntegerAppendsTheShortestNumeral := by
  intro w s h1
  have hlt := natAbs_toInt_lt (s.reg regA0)
  refine ⟨_, decimalDigits 10 (s.reg regA0).toInt.natAbs, exec_systemcall_of_selector w s 1 h1,
    congrArg (s.conOut ++ ·) (decimal_eq_sign_append _), digitsValue_decimalDigits hlt,
    fun _ => isDigit_of_mem_decimalDigits, decimalDigits_ne_nil _ _, fun hhead => ?_, rfl, rfl, fun _ => rfl,
    fun _ => rfl, rfl, rfl⟩
  rcases Nat.eq_zero_or_pos (s.reg regA0).toInt.natAbs with hzero | hpos
  · rw [hzero]
    rfl
  · exact absurd hhead (head?_decimalDigits_ne_zero hlt hpos)

/-! ### Selector 4: the string -/

/-- Settles O36: the loop stops at the first zero byte. -/
theorem printStringAppendsTheBytesBeforeTheZero : Obligations.PrintStringAppendsTheBytesBeforeTheZero := by
  intro w s n h4 hn hne hz
  have hprint : printString s = .next (s.emit (bytesFrom s (s.reg regA0) n)).advance := by
    rw [printString, printFrom_of_zero s _ n addressCount hn hne hz, advanceAfter_ok]
  exact ⟨_, (exec_systemcall_of_selector w s 4 h4).trans hprint,
    congrArg (s.conOut ++ ·) (bytesFrom_eq_map s _ n), rfl, rfl, fun _ => rfl, fun _ => rfl, rfl, rfl⟩

/-- Settles O37: the loop meets every address of memory before it gives up. -/
theorem printStringIsStuckOnlyWithoutAZeroByte : Obligations.PrintStringIsStuckOnlyWithoutAZeroByte := by
  intro w s h4
  rw [show exec (.systemcall w) s = printString s from exec_systemcall_of_selector w s 4 h4]
  rcases printString_cases s with ⟨n, -, -, hz, hprint⟩ | ⟨hne, hprint⟩
  · exact iff_of_false (by simp [hprint]) fun hne => hne _ hz
  · exact iff_of_true hprint hne

/-! ### `ScanInt` -/

theorem isSpaceByte_eq_true {b : Byte} :
    isSpaceByte b = true ↔ b.toNat = 0x20 ∨ (0x09 ≤ b.toNat ∧ b.toNat ≤ 0x0D) := by
  simp [isSpaceByte, ← BitVec.toNat_inj]

theorem isDigitByte_eq_true {b : Byte} : isDigitByte b = true ↔ 0x30 ≤ b.toNat ∧ b.toNat ≤ 0x39 := by
  simp [isDigitByte]

section
variable {p : Byte → Bool} {l rest : List Byte}

theorem dropWhile_append_of_head (hl : ∀ b ∈ l, p b = true) (hrest : ∀ b, rest.head? = some b → ¬ p b = true) :
    (l ++ rest).dropWhile p = rest := by
  rw [List.dropWhile_append_of_pos hl]
  cases rest with
  | nil => rfl
  | cons b rest => exact List.dropWhile_cons_of_neg (hrest b rfl)

theorem takeWhile_append_of_head (hl : ∀ b ∈ l, p b = true) (hrest : ∀ b, rest.head? = some b → ¬ p b = true) :
    (l ++ rest).takeWhile p = l := by
  rw [List.takeWhile_append_of_pos hl]
  cases rest with
  | nil => simp
  | cons b rest => simp [hrest b rfl]

end

/-- The byte is neither white space nor a sign. -/
def StartsNumber (b : Byte) : Prop := ¬ isSpaceByte b = true ∧ b ≠ 0x2B ∧ b ≠ 0x2D

theorem startsNumber_of_isDigitByte {b : Byte} (h : isDigitByte b = true) : StartsNumber b := by
  rw [isDigitByte_eq_true] at h
  refine ⟨by rw [isSpaceByte_eq_true]; omega, ?_, ?_⟩
  all_goals
    rintro rfl
    simp at h

theorem scanSign_append {sign body : List Byte} (hsign : sign = [] ∨ sign = [0x2B] ∨ sign = [0x2D])
    (hbody : sign = [] → ∀ b, body.head? = some b → StartsNumber b) :
    scanSign (sign ++ body) = (decide (sign = [0x2D]), body) := by
  rcases hsign with rfl | rfl | rfl
  · cases body with
    | nil => rfl
    | cons b body =>
      obtain ⟨-, hplus, hminus⟩ := hbody rfl b rfl
      exact (if_neg hplus).trans (if_neg hminus)
  · rfl
  · rfl

/-- R184: the scan of an input taken apart by the grammar. -/
theorem scanInt_append {sp sign ds rest : List Byte} (hsp : ∀ b ∈ sp, isSpaceByte b = true)
    (hsign : sign = [] ∨ sign = [0x2B] ∨ sign = [0x2D]) (hds : ∀ b ∈ ds, isDigitByte b = true)
    (hrest : ∀ b, rest.head? = some b → ¬ isDigitByte b = true)
    (hbody : sign = [] → ∀ b, (ds ++ rest).head? = some b → StartsNumber b) :
    scanInt (sp ++ (sign ++ (ds ++ rest))) =
      if ds = [] then none
      else some (if sign = [0x2D] then -(digitsValue ds : Int) else (digitsValue ds : Int), rest) := by
  have hspace : (sp ++ (sign ++ (ds ++ rest))).dropWhile isSpaceByte = sign ++ (ds ++ rest) := by
    refine dropWhile_append_of_head hsp fun b hb => ?_
    rcases hsign with rfl | rfl | rfl
    · exact (hbody rfl b hb).1
    · cases hb
      decide
    · cases hb
      decide
  simp only [scanInt, hspace, scanSign_append hsign hbody, takeWhile_append_of_head hds hrest,
    dropWhile_append_of_head hds hrest, decide_eq_true_eq]

/-- Settles O39: each clause is an input taken apart by the grammar, with digits or without. -/
theorem scanIntFollowsItsGrammar : Obligations.ScanIntFollowsItsGrammar := by
  intro sp sign ds rest hsp hsign hds hrest
  simp only [← isSpaceByte_eq_true, ← isDigitByte_eq_true] at hsp hds hrest ⊢
  refine ⟨fun hne => ?_, fun hne => ?_, fun hhead => ?_, rfl, digitsValue_append_singleton ds⟩
  · have hbody : ∀ b, (ds ++ rest).head? = some b → StartsNumber b := fun b hb => by
      rw [List.head?_append_of_ne_nil _ hne] at hb
      exact startsNumber_of_isDigitByte (hds b (List.mem_of_mem_head? hb))
    simpa [hne] using scanInt_append hsp hsign hds hrest fun _ => hbody
  · simpa using scanInt_append (ds := []) hsp hsign nofun hrest fun h => absurd h hne
  · have hstart : ∀ b, rest.head? = some b → StartsNumber b := fun b hb => by
      obtain ⟨hblank, hcontrol, hplus, hminus⟩ := hhead b hb
      exact ⟨by rw [isSpaceByte_eq_true, not_or]; exact ⟨hblank, hcontrol⟩, hplus, hminus⟩
    simpa using scanInt_append (sign := []) (ds := []) hsp (.inl rfl) nofun hrest fun _ => hstart

/-! ### Selector 8: the line -/

/-- Past the line the buffer is zero. -/
theorem getD_lineBuffer (input : List Byte) (len k : Nat) :
    (lineBuffer input len).getD k 0 = (lineOf input (len - 1)).getD k 0 := by
  unfold lineBuffer
  rcases Nat.lt_or_ge k (lineOf input (len - 1)).length with hk | hk
  · exact List.getD_append _ _ _ _ hk
  · rw [List.getD_append_right _ _ _ _ hk, List.getD_eq_default _ _ hk]
    simp

theorem afterLine_eq_drop (input : List Byte) (limit : Nat) :
    afterLine input limit =
      input.drop (if (lineOf input limit).length < (input.take limit).length then (lineOf input limit).length + 1
        else (lineOf input limit).length) := by
  unfold afterLine
  split_ifs <;> rfl

/-- Settles O40: the buffer is one run of writes, of the line and then zeros. -/
theorem readStringFillsTheBuffer : Obligations.ReadStringFillsTheBuffer := by
  rintro w s _ _ _ h8 hm rfl hlen rfl rfl
  have h1 : s.reg regA1 ≠ 0 := fun h => by simp [h] at hlen
  refine ⟨afterReadString s, (exec_systemcall_of_selector w s 8 h8).trans ((readString_eq s).trans (if_neg h1)),
    fun x => ?_, afterLine_eq_drop _ _, rfl, rfl, fun _ => rfl, rfl, rfl⟩
  have hread := Memory.read_writeList (s.reg regA0) x (lineBuffer s.conIn (s.reg regA1).toNat) hm
    ((length_lineBuffer _ _).trans_le (s.reg regA1).isLt.le)
  rwa [length_lineBuffer, getD_lineBuffer] at hread

/-- Settles O41: the length is tested before anything is read. -/
theorem readStringOfLengthZeroIsRefused : Obligations.ReadStringOfLengthZeroIsRefused := fun w s h8 h1 =>
  (exec_systemcall_of_selector w s 8 h8).trans ((readString_eq s).trans (if_pos h1))

/-! ### Selectors 11 and 12: characters -/

theorem readCharacter_of_cons {s : State} {c : Byte} {rest : List Byte} (h : s.conIn = c :: rest) :
    readCharacter s = .next ((s.setConIn rest).setReg regRes (BitVec.ofNat 32 c.toNat)).advance := by
  rw [← zext32_eq_ofNat]
  simp only [readCharacter, h]
  rfl

theorem readCharacter_of_nil {s : State} (h : s.conIn = []) : readCharacter s = .next (s.setRegFree regRes).advance := by
  simp only [readCharacter, h]

/-- Settles O42: by the selector, and for selector 12 by whether input is left. -/
theorem characterServices : Obligations.CharacterServices := by
  intro w s
  refine ⟨fun h11 => ?_, fun c rest h12 hin => ?_, fun h12 hin => ?_⟩
  · exact ⟨_, exec_systemcall_of_selector w s 11 h11, congrArg (s.conOut ++ [·]) (wordByte_zero _), rfl, rfl,
      fun _ => rfl, fun _ => rfl, rfl, rfl⟩
  · exact ⟨_, (exec_systemcall_of_selector w s 12 h12).trans (readCharacter_of_cons hin),
      fun r => State.reg_setReg (s.setConIn rest) regRes r _, rfl, rfl, rfl, fun _ => rfl, rfl, rfl⟩
  · exact ⟨_, freeWord s.freeIndex, (exec_systemcall_of_selector w s 12 h12).trans (readCharacter_of_nil hin),
      fun r => State.reg_setRegFree s regRes r, hin, rfl, rfl, fun _ => rfl, rfl⟩

/-! ### The console streams -/

/-- Output grew at its end, input shrank at its front, each only by a service that prints or reads. -/
def StreamsFlow (i : Instr) (s t : State) : Prop :=
  (∃ out, t.conOut = s.conOut ++ out) ∧ (∃ taken, s.conIn = taken ++ t.conIn) ∧
  (t.conOut ≠ s.conOut → i.tag = .systemcall ∧ s.reg regSel ∈ ([1, 4, 11] : List Word)) ∧
  (t.conIn ≠ s.conIn → i.tag = .systemcall ∧ s.reg regSel ∈ ([5, 8, 12] : List Word))

section
variable {i : Instr} {s t : State} {w : Word}

theorem streamsFlow_of_same (hout : t.conOut = s.conOut) (hin : t.conIn = s.conIn) : StreamsFlow i s t :=
  ⟨⟨[], by simp [hout]⟩, ⟨[], by simp [hin]⟩, fun h => absurd hout h, fun h => absurd hin h⟩

theorem streamsFlow_of_printed {out : List Byte} (hs : s.reg regSel ∈ ([1, 4, 11] : List Word))
    (hout : t.conOut = s.conOut ++ out) (hin : t.conIn = s.conIn) : StreamsFlow (.systemcall w) s t :=
  ⟨⟨out, hout⟩, ⟨[], by simp [hin]⟩, fun _ => ⟨rfl, hs⟩, fun h => absurd hin h⟩

theorem streamsFlow_of_read (hs : s.reg regSel ∈ ([5, 8, 12] : List Word)) (hout : t.conOut = s.conOut)
    (hin : t.conIn <:+ s.conIn) : StreamsFlow (.systemcall w) s t :=
  ⟨⟨[], by simp [hout]⟩, hin.imp fun _ => Eq.symm, fun h => absurd hout h, fun _ => ⟨rfl, hs⟩⟩

theorem afterLine_suffix (input : List Byte) (limit : Nat) : afterLine input limit <:+ input := by
  rw [afterLine_eq_drop]
  exact List.drop_suffix _ _

theorem streamsFlow_of_systemcall_next (h : exec (.systemcall w) s = .next t) : StreamsFlow (.systemcall w) s t := by
  rcases systemcall_next_cases h with ⟨hs, rfl⟩ | ⟨hs, n, -, -, -, rfl⟩ | ⟨hs, n, rest, hscan, hval⟩ | ⟨hs, -, rfl⟩ |
    ⟨hs, -, rfl⟩ | ⟨-, rfl⟩ | ⟨hs, rfl⟩ | ⟨hs, c, rest, hin, rfl⟩ | ⟨-, -, rfl⟩ | ⟨-, rfl⟩
  · exact streamsFlow_of_printed (by simp [hs]) rfl rfl
  · exact streamsFlow_of_printed (by simp [hs]) rfl rfl
  · have hrest : rest <:+ s.conIn := scanInt_suffix hscan
    rcases hval with ⟨-, rfl⟩ | ⟨-, rfl⟩ | ⟨-, -, rfl⟩ <;> exact streamsFlow_of_read (by simp [hs]) rfl hrest
  · exact streamsFlow_of_read (by simp [hs]) rfl (List.drop_suffix _ _)
  · exact streamsFlow_of_read (by simp [hs]) rfl (afterLine_suffix _ _)
  · exact streamsFlow_of_same rfl rfl
  · exact streamsFlow_of_printed (by simp [hs]) rfl rfl
  · exact streamsFlow_of_read (by simp [hs]) rfl (hin ▸ List.suffix_cons c rest)
  · exact streamsFlow_of_same rfl rfl
  · exact streamsFlow_of_same rfl rfl

end

/-- Settles O45: only the services of SYSTEMCALL touch the console. -/
theorem consoleStreamsOnlyGrowAndShrink : Obligations.ConsoleStreamsOnlyGrowAndShrink := by
  intro i s t h
  by_cases hi : ∃ w, i = .systemcall w
  · obtain ⟨w, rfl⟩ := hi
    exact streamsFlow_of_systemcall_next h
  · rcases next_cases_of_not_systemcall (not_exists.1 hi) h with ⟨d, v, pc', rfl⟩ | ⟨m, rfl⟩ <;>
      exact streamsFlow_of_same rfl rfl

end Sys2Proof.Machine
end

section
/-! The launch (R34, R221): the memory image is a fold of stores, of which the last one to an address stands, and the
register image hardwires register 0. -/

namespace Sys2Proof.Machine

theorem loadImage_append_cons (before after : List (Word × Byte)) (a : Word) (b : Byte) :
    loadImage (before ++ (a, b) :: after) =
      after.foldl (fun m c => m.write c.1.toNat c.2) ((loadImage before).write a.toNat b) := by
  rw [loadImage, List.foldl_append]
  rfl

/-- The last store to an address stands. -/
theorem read_loadImage_of_last {before after : List (Word × Byte)} {a : Word} {b : Byte} (h : ∀ c ∈ after, c.1 ≠ a) :
    (loadImage (before ++ (a, b) :: after)).read a.toNat = b := by
  rw [loadImage_append_cons, Memory.read_foldl_write_other after _ a h]
  exact Memory.read_write_same _ b (wf_loadImage before)

theorem regRead_launchRegs (hw : Bool) (r : Vector Word 32) (i : RegIdx) :
    regRead hw (launchRegs hw r) i = if hw = true ∧ i = 0 then 0 else r[i.toNat]'(i.isLt) := by
  unfold regRead launchRegs
  split_ifs with hi hhw
  · rfl
  · have hne : 0 ≠ i.toNat := fun h => hi ⟨hhw, BitVec.eq_of_toNat_eq h.symm⟩
    exact Vector.getElem_set_ne _ _ hne
  · rfl

theorem getElem_zero_launchRegs_true (r : Vector Word 32) : (launchRegs true r)[0] = 0 := by simp [launchRegs]

theorem inv_launch (l : Launch) : (State.launch l).inv = true :=
  State.inv_iff.2 ⟨wf_loadImage l.memInit, getElem_zero_launchRegs_true l.rInit⟩

/-- Settles O48: the images of memory and registers, the other fields as given. -/
theorem launchStatesHoldTheLaunchInputs : Obligations.LaunchStatesHoldTheLaunchInputs := by
  intro l
  refine ⟨inv_launch l, rfl, rfl, rfl, rfl, regRead_launchRegs r0Hardwired l.rInit, fun a => ⟨?_, fun h => ?_⟩⟩
  · intro before b after hmem hafter
    have hread := read_loadImage_of_last (before := before) (b := b) hafter
    rwa [← hmem] at hread
  · exact Memory.read_foldl_write_other l.memInit [] a h

/-- Settles O49: the reset state is a launch state, so it has the invariant. -/
theorem resetIsTheLaunchOfZeroInputs : Obligations.ResetIsTheLaunchOfZeroInputs := by
  have hreset : State.reset = State.launch ⟨0, Vector.replicate 32 0, [], []⟩ := by decide
  refine ⟨hreset ▸ inv_launch _, hreset, fun r => ?_⟩
  simp [State.reg, regRead, State.reset]

end Sys2Proof.Machine
end
